-- ==== Sys2Proof/Word.lean ====
section
/-! DEFINITION. The widths of the machine: the bit vectors that every other file speaks of
(00_scope.md rule R7 and 10_state.md rules R21, R28, R30, R33). -/

namespace Sys2Proof

/-- A general register, an address, `pc`, `sp` and the immediate `imm`: 16 bits (rules R21, R23, R85). -/
abbrev Word := BitVec 16

/-- A byte of memory or of an instruction, and a sprite dimension (rules R30, R32). -/
abbrev Byte := BitVec 8

/-- Four bits: a register index, a condition selector or a palette index (rules R83, R28). -/
abbrev Nibble := BitVec 4

/-- The index of a general register; all sixteen values name a register (rule R21). -/
abbrev Reg := Nibble

/-- A framebuffer cell: a packed 32-bit colour (rule R33). -/
abbrev Pixel := BitVec 32

end Sys2Proof
end

