-- ==== Sys2Proof/Config.lean ====
section
/-! DEFINITION. The implementation parameters of 00_scope.md rule R7: the sizes the spec gives a number,
the reset parameters the model names a number for, and the open values, which have no body. -/

namespace Sys2Proof.Config

/-- `MEM_SIZE`, the number of bytes of memory.
DESIGN CHOICE (log entry 1): the spec keeps it a parameter and gives 65,535 as its default; unsafe for a
claim that an access at 0xFFFF faults. -/
def memSize : Nat := 65535

/-- `WIDTH`, the framebuffer's columns (rule R33). -/
def width : Nat := 320

/-- `HEIGHT`, the framebuffer's rows (rule R33). -/
def height : Nat := 240

/-- The number of framebuffer cells, 76,800 (rule R33). -/
def cells : Nat := width * height

/-- `PALETTE`, the packed colour of a palette index: open (rule R34, decision D8), so a constant with no
body (log entry 2). Nothing says that two entries differ. Safe. -/
opaque palette : Nibble → Pixel

/-- `FB_RESET`, the framebuffer's contents at reset by cell number: open (rule R45, decision D7), so a
constant with no body (log entry 3). Safe. -/
opaque fbReset : Nat → Pixel

/-- `SP_RESET`. PRESUMED (log entry 4): the document says "a fixed high-memory constant" and gives no
number; 0xFDF0 is the default that decision D6 and entry U12 offer from the Chip16 family. Unsafe, though
no instruction reads `sp` (rule R25). -/
def spReset : Word := 0xFDF0

/-- `RESET_REGS`, the reset value of each general register: 0 (rule R45, the spec's own decision D3;
log entry 6). Unsafe. -/
def regsReset : Word := 0

/-- `START_ADDR` of a machine into which nothing has been loaded. DESIGN CHOICE (log entry 5): the start
address is an input of the load, and `launch` takes it as an argument. Unsafe. -/
def startAddrUnloaded : Word := 0

/-- `EXEC_RATE`, core cycles a second; timing only, no rule depends on it (rule R311, log entry 21). -/
def execRate : Nat := 1000000

/-- `DISPLAY_RATE`, display ticks a second; timing only, no rule depends on it (rule R311, log entry 21). -/
def displayRate : Nat := 60

end Sys2Proof.Config
end

