-- ==== Sys2Proof/Syntax.lean ====
section
/-! DEFINITION. The syntax of the instruction set: the four bytes of an instruction as memory holds them,
and the fifteen instructions of 30_encoding.md rule R90. -/

namespace Sys2Proof

/-- The four bytes of one instruction in ascending address order, `[opcode][operand][ll][hh]`
(30_encoding.md rule R80). Any four bytes are a `RawInstr`; `RawInstr.wellFormed` says which are an
instruction. -/
structure RawInstr where
  b0 : Byte
  b1 : Byte
  b2 : Byte
  b3 : Byte
deriving DecidableEq, Repr

/-- The instructions, one constructor per row of the opcode table. Each operand has exactly the width of
its field, so every value of this type is an instruction the machine can run. -/
inductive Instr where
  /-- CLS, 0x01: clear the screen (rule R131). -/
  | cls
  /-- VBLNK, 0x02: wait for vertical blank (rule R133). -/
  | vblnk
  /-- BGC, 0x03: set the background colour index (rule R136). -/
  | bgc (n : Nibble)
  /-- SPR, 0x04: set the sprite's width in bytes and its height in rows (rule R139). -/
  | spr (w h : Byte)
  /-- DRW, 0x05: draw the sprite at address `imm` at column `regs[x]`, row `regs[y]` (rule R150). -/
  | drw (x y : Reg) (imm : Word)
  /-- JMP, 0x10 (rule R180). -/
  | jmp (imm : Word)
  /-- JZ, 0x12 with selector 0 (rule R182). -/
  | jz (imm : Word)
  /-- JC, 0x12 with selector 9 (rule R183). -/
  | jc (imm : Word)
  /-- JME, 0x13: jump if `regs[x] = regs[y]` (rule R186). -/
  | jme (x y : Reg) (imm : Word)
  /-- LDI, 0x20 (rule R195). -/
  | ldi (x : Reg) (imm : Word)
  /-- MOV, 0x24: destination `x`, source `y` (rule R197). -/
  | mov (x y : Reg)
  /-- ADD, 0x41: destination `x` (rule R212). -/
  | add (x y : Reg)
  /-- SUBI, 0x50 (rule R216). -/
  | subi (x : Reg) (imm : Word)
  /-- SUB, 0x51: destination `x` (rule R218). -/
  | sub (x y : Reg)
  /-- SUB3, 0x52: destination `z` (rule R220). -/
  | sub3 (x y z : Reg)
deriving DecidableEq, Repr

end Sys2Proof
end

