-- ==== Sys2Proof/WellFormed.lean ====
section
/-! DEFINITION. Which four bytes are an instruction (30_encoding.md rules R90, R91, R96, R97). The checks
are on the bytes: an `Instr` has operands of exactly its fields' widths and nothing left to check. -/

namespace Sys2Proof

/-- The fourteen opcode bytes (rule R96's legal set). -/
def legalOpcodes : List Byte :=
  [0x01, 0x02, 0x03, 0x04, 0x05, 0x10, 0x12, 0x13, 0x20, 0x24, 0x41, 0x50, 0x51, 0x52]

/-- The first check: the opcode byte is in the table (rule R96). -/
def legalOpcode (op : Byte) : Bool := legalOpcodes.contains op

/-- The second check: the selector of opcode 0x12 is 0 or 9 (rule R97). -/
def legalSelector (sel : Nibble) : Bool := sel == 0x0 || sel == 0x9

/-- The four bytes are an instruction: a legal opcode, and for opcode 0x12 a legal selector in the low
nibble of the operand byte. The bits an instruction does not use are not checked (rule R87). -/
def RawInstr.wellFormed (r : RawInstr) : Bool :=
  legalOpcode r.b0 && (r.b0 != 0x12 || legalSelector (r.b1.setWidth 4))

end Sys2Proof
end

