-- ==== Sys2Proof/Decode.lean ====
section
/-! DEFINITION. The decoder, total on any four bytes and rejecting by name, then the encoder, then the
opcode table as data (30_encoding.md rules R80 to R101). -/

namespace Sys2Proof

/-- `b[3:0]` (rule R8). -/
def lowNibble (b : Byte) : Nibble := b.extractLsb' 0 4

/-- `b[7:4]` (rule R8). -/
def highNibble (b : Byte) : Nibble := b.extractLsb' 4 4

/-- `v[7:0]`, the byte `ll` of a 16-bit number (rule R85). -/
def lowByte (v : Word) : Byte := v.extractLsb' 0 8

/-- `v[15:8]`, the byte `hh` of a 16-bit number (rule R85). -/
def highByte (v : Word) : Byte := v.extractLsb' 8 8

/-- The operand byte of the indices `x` (low nibble) and `y` (high nibble) (rule R83). -/
def operandByte (x y : Nibble) : Byte := y ++ x

/-- Field `x` (rule R83); in opcode 0x12 the condition selector (rule R91). -/
def RawInstr.x (r : RawInstr) : Nibble := lowNibble r.b1

/-- Field `y` (rule R83). -/
def RawInstr.y (r : RawInstr) : Nibble := highNibble r.b1

/-- Field `z`, in BGC the colour index `n` (rules R84, R86). -/
def RawInstr.z (r : RawInstr) : Nibble := lowNibble r.b2

/-- The little-endian immediate `hhll` (rule R85). -/
def RawInstr.imm (r : RawInstr) : Word := r.b3 ++ r.b2

/-- The bytes in address order. -/
def RawInstr.toList (r : RawInstr) : List Byte := [r.b0, r.b1, r.b2, r.b3]

/-- Why four bytes are no instruction; both are the document's "unrecognized-instruction fault". -/
inductive DecodeError where
  /-- The opcode byte is not in the table (rule R96). -/
  | unrecognizedOpcode (op : Byte)
  /-- Opcode 0x12 with a selector other than 0 and 9 (rule R97). -/
  | unrecognizedCondition (sel : Nibble)
deriving DecidableEq, Repr

/-- Opcode 0x12 examines the selector first (rules R91, R181). -/
def decodeJcc (r : RawInstr) : Except DecodeError Instr :=
  if r.x = 0x0 then .ok (.jz r.imm)
  else if r.x = 0x9 then .ok (.jc r.imm)
  else .error (.unrecognizedCondition r.x)

/-- The opcode map of rule R90: the opcode alone chooses the row, and unused fields are ignored
(rules R82, R87). -/
def decode (r : RawInstr) : Except DecodeError Instr :=
  match r.b0 with
  | 0x01#8 => .ok .cls
  | 0x02#8 => .ok .vblnk
  | 0x03#8 => .ok (.bgc r.z)
  | 0x04#8 => .ok (.spr r.b2 r.b3)
  | 0x05#8 => .ok (.drw r.x r.y r.imm)
  | 0x10#8 => .ok (.jmp r.imm)
  | 0x12#8 => decodeJcc r
  | 0x13#8 => .ok (.jme r.x r.y r.imm)
  | 0x20#8 => .ok (.ldi r.x r.imm)
  | 0x24#8 => .ok (.mov r.x r.y)
  | 0x41#8 => .ok (.add r.x r.y)
  | 0x50#8 => .ok (.subi r.x r.imm)
  | 0x51#8 => .ok (.sub r.x r.y)
  | 0x52#8 => .ok (.sub3 r.x r.y r.z)
  | op => .error (.unrecognizedOpcode op)

/-- The bytes an assembler writes, with 0 in every ignored bit (rule R101). -/
def encode : Instr → RawInstr
  | .cls => ⟨0x01, 0x00, 0x00, 0x00⟩
  | .vblnk => ⟨0x02, 0x00, 0x00, 0x00⟩
  | .bgc n => ⟨0x03, 0x00, operandByte n 0, 0x00⟩
  | .spr w h => ⟨0x04, 0x00, w, h⟩
  | .drw x y imm => ⟨0x05, operandByte x y, lowByte imm, highByte imm⟩
  | .jmp imm => ⟨0x10, 0x00, lowByte imm, highByte imm⟩
  | .jz imm => ⟨0x12, operandByte 0x0 0, lowByte imm, highByte imm⟩
  | .jc imm => ⟨0x12, operandByte 0x9 0, lowByte imm, highByte imm⟩
  | .jme x y imm => ⟨0x13, operandByte x y, lowByte imm, highByte imm⟩
  | .ldi x imm => ⟨0x20, operandByte x 0, lowByte imm, highByte imm⟩
  | .mov x y => ⟨0x24, operandByte x y, 0x00, 0x00⟩
  | .add x y => ⟨0x41, operandByte x y, 0x00, 0x00⟩
  | .subi x imm => ⟨0x50, operandByte x 0, lowByte imm, highByte imm⟩
  | .sub x y => ⟨0x51, operandByte x y, 0x00, 0x00⟩
  | .sub3 x y z => ⟨0x52, operandByte x y, operandByte z 0, 0x00⟩

/-- The rendering `W = b0 ‖ b1 ‖ b2 ‖ b3` that the opcode table is written over (rule R81). -/
def RawInstr.toTableWord (r : RawInstr) : BitVec 32 := r.b0 ++ r.b1 ++ r.b2 ++ r.b3

/-- The four bytes whose rendering is `w` (rule R81): memory order, the opcode in bits 31 to 24. -/
def RawInstr.ofTableWord (w : BitVec 32) : RawInstr :=
  ⟨w.extractLsb' 24 8, w.extractLsb' 16 8, w.extractLsb' 8 8, w.extractLsb' 0 8⟩

/-- The instruction the decoder reads from the table word `w` of which the table gives `nbits` bits; every
row gives all 32, and the bits above `nbits` are 0 (log entry 20). -/
def decodeTableWord (nbits w : Nat) : Option Instr :=
  match decode (RawInstr.ofTableWord (BitVec.ofNat 32 (w % 2 ^ nbits))) with
  | .ok i => some i
  | .error _ => none

/-- The row of the opcode table an instruction belongs to, by its mnemonic (rule R90). -/
def Instr.mnemonic : Instr → String
  | .cls => "CLS"
  | .vblnk => "VBLNK"
  | .bgc _ => "BGC"
  | .spr _ _ => "SPR"
  | .drw _ _ _ => "DRW"
  | .jmp _ => "JMP"
  | .jz _ => "JZ"
  | .jc _ => "JC"
  | .jme _ _ _ => "JME"
  | .ldi _ _ => "LDI"
  | .mov _ _ => "MOV"
  | .add _ _ => "ADD"
  | .subi _ _ => "SUBI"
  | .sub _ _ => "SUB"
  | .sub3 _ _ _ => "SUB3"

/-- A row of the opcode table: an instruction is the row's when `W and mask = pattern`, and `ignored` marks
the bits that neither select the instruction nor carry an operand (INDEX.md). -/
structure TableRow where
  mnemonic : String
  pattern : BitVec 32
  mask : BitVec 32
  ignored : BitVec 32
deriving DecidableEq, Repr

/-- The table's rows, a second reading of rule R90 that the decoder is stated against. -/
def opcodeTable : List TableRow :=
  [⟨"CLS", 0x01000000, 0xFF000000, 0x00FFFFFF⟩,
   ⟨"VBLNK", 0x02000000, 0xFF000000, 0x00FFFFFF⟩,
   ⟨"BGC", 0x03000000, 0xFF000000, 0x00FFF0FF⟩,
   ⟨"SPR", 0x04000000, 0xFF000000, 0x00FF0000⟩,
   ⟨"DRW", 0x05000000, 0xFF000000, 0x00000000⟩,
   ⟨"JMP", 0x10000000, 0xFF000000, 0x00FF0000⟩,
   ⟨"JZ", 0x12000000, 0xFF0F0000, 0x00F00000⟩,
   ⟨"JC", 0x12090000, 0xFF0F0000, 0x00F00000⟩,
   ⟨"JME", 0x13000000, 0xFF000000, 0x00000000⟩,
   ⟨"LDI", 0x20000000, 0xFF000000, 0x00F00000⟩,
   ⟨"MOV", 0x24000000, 0xFF000000, 0x0000FFFF⟩,
   ⟨"ADD", 0x41000000, 0xFF000000, 0x0000FFFF⟩,
   ⟨"SUBI", 0x50000000, 0xFF000000, 0x00F00000⟩,
   ⟨"SUB", 0x51000000, 0xFF000000, 0x0000FFFF⟩,
   ⟨"SUB3", 0x52000000, 0xFF000000, 0x0000F0FF⟩]

/-- The instruction is the row's when `(W and mask) = match`. -/
def TableRow.selects (row : TableRow) (r : RawInstr) : Bool :=
  r.toTableWord &&& row.mask == row.pattern

/-- The two words differ at most in the bits the row ignores. -/
def TableRow.sameUsedBits (row : TableRow) (r r' : RawInstr) : Bool :=
  r.toTableWord &&& ~~~row.ignored == r'.toTableWord &&& ~~~row.ignored

end Sys2Proof
end

