-- ==== Sys2Proof/Machine/Storage.lean ====
section
/-! DEFINITION. How the memory array and the framebuffer are held as plain data: lists of (key, value) pairs
with keys strictly rising and no value equal to what an unlisted key reads as, so that equal storages are
equal lists. -/

namespace Sys2Proof.Machine

/-- The value at key `k`; an unlisted key reads as `d`. -/
def Sparse.get {α : Type} (d : α) : List (Nat × α) → Nat → α
  | [], _ => d
  | (k', v) :: rest, k => if k = k' then v else Sparse.get d rest k

/-- The storage with `v` at key `k`, in the canonical form again. -/
def Sparse.set {α : Type} [DecidableEq α] (d : α) : List (Nat × α) → Nat → α → List (Nat × α)
  | [], k, v => if v = d then [] else [(k, v)]
  | (k', v') :: rest, k, v =>
    if k < k' then
      if v = d then (k', v') :: rest else (k, v) :: (k', v') :: rest
    else if k = k' then
      if v = d then rest else (k, v) :: rest
    else (k', v') :: Sparse.set d rest k v

/-- The canonical form from key `lo` on: keys rising, below `bound`, no value `d`. -/
def Sparse.wfFrom {α : Type} [DecidableEq α] (d : α) (bound : Nat) : Nat → List (Nat × α) → Bool
  | _, [] => true
  | lo, (k, v) :: rest =>
    decide (lo ≤ k) && decide (k < bound) && decide (v ≠ d) && Sparse.wfFrom d bound (k + 1) rest

/-- The storage that holds `f k` at every key below `n`. -/
def Sparse.ofFn {α : Type} [DecidableEq α] (d : α) (n : Nat) (f : Nat → α) : List (Nat × α) :=
  (List.range n).filterMap fun k => if f k = d then none else some (k, f k)

/-- The storage that holds the listed values at the keys from `k` on. -/
def Sparse.ofList {α : Type} [DecidableEq α] (d : α) : Nat → List α → List (Nat × α)
  | _, [] => []
  | k, v :: rest => if v = d then Sparse.ofList d (k + 1) rest else (k, v) :: Sparse.ofList d (k + 1) rest

/-- The memory array `mem`, `MEM_SIZE` bytes (10_state.md rule R32). -/
abbrev Memory := List Host.Cell

/-- What a byte of memory that nothing has written reads as: memory is "zero-initialized" (rule R45). -/
def Memory.unlisted : Byte := 0

/-- The canonical form of a memory: addresses strictly rising and below `MEM_SIZE`, no zero byte listed. -/
def Memory.wf (m : Memory) : Bool := Sparse.wfFrom Memory.unlisted Config.memSize 0 m

/-- The framebuffer `fb`, 76,800 packed colours by cell number `py × WIDTH + px` (rule R33). -/
abbrev Framebuffer := List (Nat × Pixel)

/-- What an unlisted cell holds: `PALETTE(0)`. It is the representation's choice (log entry 11), so that a
cleared screen is the empty list; a framebuffer with other contents lists them. -/
def Framebuffer.unlisted : Pixel := Config.palette 0

/-- The canonical form of a framebuffer: cells strictly rising and below 76,800, none listed as
`PALETTE(0)`. -/
def Framebuffer.wf (fb : Framebuffer) : Bool := Sparse.wfFrom Framebuffer.unlisted Config.cells 0 fb

/-- The framebuffer whose every cell `k` holds `f k`; irreducible, so that no proof unfolds 76,800 cells. -/
@[irreducible] def Framebuffer.ofFn (f : Nat → Pixel) : Framebuffer := Sparse.ofFn Framebuffer.unlisted Config.cells f

/-- The framebuffer whose every cell holds `v`. -/
def Framebuffer.filled (v : Pixel) : Framebuffer :=
  if v = Framebuffer.unlisted then [] else Framebuffer.ofFn fun _ => v

end Sys2Proof.Machine
end

