-- ==== Sys2Proof/Machine/State.lean ====
section
/-! DEFINITION. The state of the machine as plain data (10_state.md rule R20), the reasons a step can stop,
and the state after reset (rule R45). -/

namespace Sys2Proof.Machine

/-- The four flags, four named booleans with no layout (10_state.md rule R26). -/
structure Flags where
  /-- Carry: written by ADD, SUBI, SUB, SUB3 and DRW, read by JC (rule R27). -/
  c : Bool
  /-- Zero: written by ADD, SUBI, SUB, SUB3, read by JZ. -/
  z : Bool
  /-- Overflow: written by ADD, SUBI, SUB, SUB3, read by nothing. -/
  o : Bool
  /-- Negative: written by ADD, SUBI, SUB, SUB3, read by nothing. -/
  n : Bool
deriving DecidableEq, Repr

/-- The kind of a fault of the core together with what its `bad` field records (60_exceptions.md rule
R263). -/
inductive FaultCause where
  /-- Kind 1, raised by the dispatch of any cycle: the opcode byte. -/
  | unrecognizedOpcode (op : Byte)
  /-- Kind 2, raised by opcode 0x12: the selector. -/
  | unrecognizedCondition (sel : Nibble)
  /-- Kind 3, raised by the fetch of any cycle and by DRW: the offending address. -/
  | memoryBounds (addr : Word)
deriving DecidableEq, Repr

/-- The record a fault leaves in the latch (rule R262). -/
structure FaultRecord where
  /-- The kind and `bad`. -/
  cause : FaultCause
  /-- The address of the instruction being executed. -/
  addr : Word
  /-- The instruction's bytes, as far as they were fetched. -/
  bytes : List Byte
deriving DecidableEq, Repr

/-- The complete state (10_state.md rule R20), and the host's stop (50_agents_and_interfaces.md rule
R246). -/
structure State where
  /-- The sixteen general registers (rule R21). -/
  regs : Vector Word 16
  /-- The program counter (rule R23). -/
  pc : Word
  /-- The stack pointer, which no instruction reads or writes (rule R25). -/
  sp : Word
  /-- The flags (rule R26). -/
  flags : Flags
  /-- The background colour index (rule R28). -/
  bg : Nibble
  /-- The foreground colour index, written by CLS and read by nothing (rule R29). -/
  fg : Nibble
  /-- The sprite's width in bytes (rule R30). -/
  spritew : Byte
  /-- The sprite's height in rows (rule R30). -/
  spriteh : Byte
  /-- The vertical-blank latch (rule R31). -/
  vblank : Bool
  /-- The memory array (rule R32). -/
  mem : Memory
  /-- The framebuffer (rule R33). -/
  fb : Framebuffer
  /-- The fault latch: set by the first fault, never cleared (rule R40). -/
  fault : Option FaultRecord
  /-- The host has stopped the machine (rules R111, R246; log entry 8). -/
  stopped : Bool
deriving DecidableEq, Repr

/-- Why `step` has no next state. A fault of the instruction set is no constructor here: its cycle answers
the next state, in which the fault latch is set (log entry 7). -/
inductive Fault where
  /-- Raised by `step` alone, when the fault latch holds a record: a faulted core has no step (60_exceptions.md
  rule R265). Safe. -/
  | halted (record : FaultRecord)
  /-- Raised by `step` alone, when the host has stopped the machine: no cycle begins
  (50_agents_and_interfaces.md rule R246). It is a stuck state and no fault of the machine. Safe. -/
  | stoppedByHost
deriving DecidableEq, Repr

/-- What the model gives no state for. No instruction is refused. -/
inductive Refusal where
  /-- Raised by an arm of `exec` for an instruction that has no meaning; no arm is so. Safe. -/
  | notModelled (mnemonic : String)
  /-- Raised by the load alone: a payload longer than `MEM_SIZE` breaks reset's precondition
  (50_agents_and_interfaces.md rule R244, decision D31). Safe. -/
  | payloadTooLong
  /-- Raised by the load alone: the cartridge file ends before its header or its declared payload does, so
  no run exists (rule R243). Safe. -/
  | cartridgeTruncated
deriving DecidableEq, Repr

/-- The machine after reset with nothing loaded (10_state.md rule R45). The values of the registers, flags,
display-control registers and the latch are the spec's own decisions D3 to D5 (log entry 6), `sp` is
presumed (log entry 4), `pc` waits for the load's start address (log entry 5), and the framebuffer is open
(log entry 3). -/
def State.reset : State where
  regs := Vector.replicate 16 Config.regsReset
  pc := Config.startAddrUnloaded
  sp := Config.spReset
  flags := { c := false, z := false, o := false, n := false }
  bg := 0
  fg := 0
  spritew := 0
  spriteh := 0
  vblank := false
  mem := []
  fb := Framebuffer.ofFn Config.fbReset
  fault := none
  stopped := false

end Sys2Proof.Machine
end

