-- ==== Sys2Proof/Machine/Operands.lean ====
section
/-! DEFINITION. The operand forms: how a 16-bit value is read as a number and how the register, coordinate
and address operands of an instruction are formed. -/

namespace Sys2Proof.Machine

/-- The unsigned reading (00_scope.md rule R9). -/
def uval (v : Word) : Nat := v.toNat

/-- The two's-complement signed reading (rule R9). -/
def sval (v : Word) : Int := v.toInt

/-- The 16-bit value congruent to `n` modulo 65,536 (rule R9). -/
def wrap16 (n : Int) : Word := BitVec.ofInt 16 n

/-- A register operand, `regs[i]`. `vx` and `vy` are reads of this before the body writes anything
(40_cycle.md rule R113). -/
def State.readReg (s : State) (i : Reg) : Word := s.regs.get i.toFin

/-- `regs[i] <- v`; no register is hardwired (10_state.md rule R21). -/
def State.writeReg (s : State) (i : Reg) (v : Word) : State :=
  { s with regs := s.regs.set i.toNat v i.isLt }

/-- A coordinate operand of DRW: the signed reading of a register (42_draw.md rule R151). -/
def State.readCoord (s : State) (i : Reg) : Int := sval (s.readReg i)

/-- An address `k` bytes past `a`, modulo 65,536 (20_memory.md rule R51). -/
def addrAt (a : Word) (k : Nat) : Word := a + BitVec.ofNat 16 k

end Sys2Proof.Machine
end

