-- ==== Sys2Proof/Machine/Ops.lean ====
section
/-! DEFINITION. The named operations over memory, framebuffer and `pc`, and raising a fault. There is no
return from a fault (60_exceptions.md rule R270), so no operation stands beside `raise`. -/

namespace Sys2Proof.Machine

/-- The byte at an address below `MEM_SIZE`. -/
def Memory.byteAt (m : Memory) (a : Nat) : Byte := Sparse.get Memory.unlisted m a

/-- `MemRead(a, 1)`: the byte, or the address that has none (20_memory.md rules R52, R53). -/
def Memory.read (m : Memory) (a : Word) : Except Word Byte :=
  if uval a < Config.memSize then .ok (m.byteAt (uval a)) else .error a

/-- `MemRead(a, n)`: single-byte reads in ascending order, modulo 65,536, or the first address that has no
byte (rule R54). -/
def Memory.readRun (m : Memory) (a : Word) : Nat → Except Word (List Byte)
  | 0 => .ok []
  | n + 1 =>
    match m.read a with
    | .error bad => .error bad
    | .ok b =>
      match m.readRun (addrAt a 1) n with
      | .error bad => .error bad
      | .ok bs => .ok (b :: bs)

/-- `MemWrite(a, 1, v)`, which no instruction uses (rule R56). -/
def Memory.write (m : Memory) (a : Word) (v : Byte) : Except Word Memory :=
  if uval a < Config.memSize then .ok (Sparse.set Memory.unlisted m (uval a) v) else .error a

/-- `MemWrite` on the state: an address with no byte changes nothing here; the caller raises. -/
def Memory.store (m : Memory) (a : Word) (v : Byte) : Memory :=
  match m.write a v with
  | .ok m' => m'
  | .error _ => m

/-- The four bytes of an instruction from `a` on (40_cycle.md rule R112); where an address has no byte, the
bytes fetched before it and the address. -/
def Memory.fetch (m : Memory) (a : Word) : Except (List Byte × Word) RawInstr :=
  match m.read a with
  | .error bad => .error ([], bad)
  | .ok b0 =>
    match m.read (addrAt a 1) with
    | .error bad => .error ([b0], bad)
    | .ok b1 =>
      match m.read (addrAt a 2) with
      | .error bad => .error ([b0, b1], bad)
      | .ok b2 =>
        match m.read (addrAt a 3) with
        | .error bad => .error ([b0, b1, b2], bad)
        | .ok b3 => .ok ⟨b0, b1, b2, b3⟩

/-- The memory with an instruction's four bytes stored from `a` on. -/
def Memory.storeInstr (m : Memory) (a : Word) (r : RawInstr) : Memory :=
  (((m.store a r.b0).store (addrAt a 1) r.b1).store (addrAt a 2) r.b2).store (addrAt a 3) r.b3

/-- A pixel coordinate pair is in range, each coordinate on its own (20_memory.md rule R60). -/
def inRange (px py : Int) : Bool :=
  decide (0 ≤ px) && decide (px < Config.width) && decide (0 ≤ py) && decide (py < Config.height)

/-- The number of the cell at an in-range coordinate pair, row-major (rule R60). -/
def cellIndex (px py : Int) : Nat := py.toNat * Config.width + px.toNat

/-- The packed colour of cell number `k`. -/
def Framebuffer.cellAt (fb : Framebuffer) (k : Nat) : Pixel := Sparse.get Framebuffer.unlisted fb k

/-- `FbRead(px, py)`; out of range the access does not happen (rule R60). -/
def Framebuffer.read (fb : Framebuffer) (px py : Int) : Option Pixel :=
  if inRange px py then some (fb.cellAt (cellIndex px py)) else none

/-- `FbWrite(px, py, v)`; out of range it is dropped (rule R60). -/
def Framebuffer.write (fb : Framebuffer) (px py : Int) (v : Pixel) : Framebuffer :=
  if inRange px py then Sparse.set Framebuffer.unlisted fb (cellIndex px py) v else fb

/-- The advance of `pc` past the fetched instruction, before its body runs (40_cycle.md rule R114). -/
def State.advance (s : State) : State := { s with pc := addrAt s.pc 4 }

/-- The advance undone, by VBLNK (41_display_control.md rule R133). -/
def State.rewind (s : State) : State := { s with pc := s.pc - 4 }

/-- `pc <- target`, unchecked (43_jumps.md rule R180). -/
def State.jump (s : State) (target : Word) : State := { s with pc := target }

/-- The address of the instruction whose body is running: the advanced `pc` less 4 (rule R114). -/
def State.bodyAddr (s : State) : Word := s.pc - 4

/-- `raise`: the fault record goes to the latch and the cycle ends; nothing already written is undone and
control goes nowhere else (60_exceptions.md rules R262, R269). -/
def State.raise (s : State) (a : Word) (bytes : List Byte) (cause : FaultCause) : State :=
  { s with fault := some { cause := cause, addr := a, bytes := bytes } }

/-- The fault's cause code (rule R263; the spec's own numbers, decision D12). -/
def FaultCause.code : FaultCause → Nat
  | .unrecognizedOpcode _ => 1
  | .unrecognizedCondition _ => 2
  | .memoryBounds _ => 3

/-- The cause of the fault a decoding error raises (rules R96, R97). -/
def causeOfDecodeError : DecodeError → FaultCause
  | .unrecognizedOpcode op => .unrecognizedOpcode op
  | .unrecognizedCondition sel => .unrecognizedCondition sel

end Sys2Proof.Machine
end

