-- ==== Sys2Proof/Machine/Flags.lean ====
section
/-! DEFINITION. The flag-update logic (45_arithmetic_flags.md rules R205 to R211). -/

namespace Sys2Proof.Machine

/-- `addflags(p, q)`: the wrapped sum and all four flags (rule R211). Carry is 1 whatever the operands
(rule R209). -/
def addflags (p q : Word) : Word × Flags :=
  let r := wrap16 (sval p + sval q)
  (r, { c := true
        z := decide (r = 0)
        o := decide (p.msb = q.msb) && decide (r.msb ≠ p.msb)
        n := r.msb })

/-- `subflags(m, s)`: the wrapped difference of minuend and subtrahend and all four flags (rule R211).
Carry is the signed comparison (rule R210, decision D20; log entry 14). -/
def subflags (m s : Word) : Word × Flags :=
  let d := sval m - sval s
  let r := wrap16 d
  (r, { c := decide (sval m < sval s)
        z := decide (r = 0)
        o := decide (d < -32768) || decide (d > 32767)
        n := r.msb })

/-- The result goes to register `i` and the flags to the flags, all four together (rule R205). -/
def State.writeResult (s : State) (i : Reg) (rf : Word × Flags) : State :=
  { s.writeReg i rf.1 with flags := rf.2 }

end Sys2Proof.Machine
end

