-- ==== Sys2Proof/Machine/Display.lean ====
section
/-! DEFINITION. CLS, VBLNK, BGC, SPR (41_display_control.md). In every meaning the state is the one the body
starts in: `pc` is already advanced. -/

namespace Sys2Proof.Machine

/-- CLS: `fg` and `bg` to 0 first, then every cell to `PALETTE(bg)` (rule R131, decision D19). -/
def execCls (s : State) : Host.Outcome State Fault Refusal :=
  let s1 : State := { s with fg := 0, bg := 0 }
  .next { s1 with fb := Framebuffer.filled (Config.palette s1.bg) }

/-- VBLNK: with the latch clear the advance is undone and nothing else happens; with it set the latch is
cleared (rule R133). -/
def execVblnk (s : State) : Host.Outcome State Fault Refusal :=
  if s.vblank then .next { s with vblank := false } else .next s.rewind

/-- BGC: `bg <- n` and no repaint (rules R136, R137). -/
def execBgc (n : Nibble) (s : State) : Host.Outcome State Fault Refusal :=
  .next { s with bg := n }

/-- SPR: `spritew <- b2`, `spriteh <- b3` (rule R139). -/
def execSpr (w h : Byte) (s : State) : Host.Outcome State Fault Refusal :=
  .next { s with spritew := w, spriteh := h }

end Sys2Proof.Machine
end

