-- ==== Sys2Proof/Machine/Draw.lean ====
section
/-! DEFINITION. DRW and the sprite rasterizer (42_draw.md). -/

namespace Sys2Proof.Machine

/-- One pixel of a sprite: where it lands and its palette index. -/
structure SpritePixel where
  px : Int
  py : Int
  idx : Nibble
deriving DecidableEq, Repr

/-- The two pixels of byte `i` of row `r`: the high nibble left, the low nibble right (rules R153, R155). -/
def bytePixels (X Y : Int) (r i : Nat) (b : Byte) : List SpritePixel :=
  [{ px := X + 2 * i, py := Y + r, idx := highNibble b },
   { px := X + 2 * i + 1, py := Y + r, idx := lowNibble b }]

/-- The pixels of a sprite of `w` bytes by `h` rows, in the order of rule R150's loops. -/
def spritePixels (w h : Nat) (X Y : Int) (data : List Byte) : List SpritePixel :=
  (List.range h).flatMap fun r =>
    (List.range w).flatMap fun i => bytePixels X Y r i (data.getD (r * w + i) 0)

/-- `plot` (rule R150): a transparent or out-of-range pixel does nothing (rules R157, R158); any other hits
if its cell differs from the background colour, and is written (rule R160). -/
def plot (bgColour : Pixel) (acc : Framebuffer × Bool) (p : SpritePixel) : Framebuffer × Bool :=
  if p.idx = 0 then acc
  else
    match acc.1.read p.px p.py with
    | none => acc
    | some old => (acc.1.write p.px p.py (Config.palette p.idx), acc.2 || decide (old ≠ bgColour))

/-- Step 2 of DRW: the framebuffer after the sprite and whether it hit (rules R150, R167). -/
def rasterize (data : List Byte) (w h : Nat) (X Y : Int) (bg : Nibble) (fb : Framebuffer) :
    Framebuffer × Bool :=
  (spritePixels w h X Y data).foldl (plot (Config.palette bg)) (fb, false)

/-- The number of source bytes of the sprite, `spritew × spriteh` (rule R150). -/
def State.spriteBytes (s : State) : Nat := s.spritew.toNat * s.spriteh.toNat

/-- DRW: all source bytes are read before anything is drawn, so a byte out of bounds raises with no other
effect (rules R152, R164); then the sprite is drawn and Carry alone takes the collision (rule R163).
The record's bytes are DRW's encoding, which has no ignored bits (log entry 10). -/
def execDrw (x y : Reg) (imm : Word) (s : State) : Host.Outcome State Fault Refusal :=
  match s.mem.readRun imm s.spriteBytes with
  | .error bad => .next (s.raise s.bodyAddr (encode (.drw x y imm)).toList (.memoryBounds bad))
  | .ok data =>
    let drawn := rasterize data s.spritew.toNat s.spriteh.toNat (s.readCoord x) (s.readCoord y) s.bg s.fb
    .next { s with fb := drawn.1, flags := { s.flags with c := drawn.2 } }

end Sys2Proof.Machine
end

