-- ==== Sys2Proof/Machine/Jumps.lean ====
section
/-! DEFINITION. JMP, JZ, JC, JME (43_jumps.md): absolute, unchecked targets; an untaken jump leaves the
advanced `pc` (rule R188). -/

namespace Sys2Proof.Machine

/-- `if taken: pc <- imm`. -/
def State.jumpIf (s : State) (taken : Bool) (imm : Word) : State :=
  if taken then s.jump imm else s

/-- JMP (rule R180). -/
def execJmp (imm : Word) (s : State) : Host.Outcome State Fault Refusal :=
  .next (s.jump imm)

/-- JZ (rules R182, R184). -/
def execJz (imm : Word) (s : State) : Host.Outcome State Fault Refusal :=
  .next (s.jumpIf s.flags.z imm)

/-- JC (rules R183, R184). -/
def execJc (imm : Word) (s : State) : Host.Outcome State Fault Refusal :=
  .next (s.jumpIf s.flags.c imm)

/-- JME: all 16 bits equal (rule R186). -/
def execJme (x y : Reg) (imm : Word) (s : State) : Host.Outcome State Fault Refusal :=
  .next (s.jumpIf (decide (s.readReg x = s.readReg y)) imm)

end Sys2Proof.Machine
end

