-- ==== Sys2Proof/Machine/Moves.lean ====
section
/-! DEFINITION. LDI, MOV (44_moves.md): no flag is written. -/

namespace Sys2Proof.Machine

/-- LDI: `regs[x] <- imm` (rule R195). -/
def execLdi (x : Reg) (imm : Word) (s : State) : Host.Outcome State Fault Refusal :=
  .next (s.writeReg x imm)

/-- MOV: `regs[x] <- vy` (rule R197). -/
def execMov (x y : Reg) (s : State) : Host.Outcome State Fault Refusal :=
  .next (s.writeReg x (s.readReg y))

end Sys2Proof.Machine
end

