-- ==== Sys2Proof/Machine/Arithmetic.lean ====
section
/-! DEFINITION. ADD, SUBI, SUB, SUB3 (45_arithmetic_flags.md): operands are read before the result is
written (40_cycle.md rule R113). -/

namespace Sys2Proof.Machine

/-- ADD: `regs[x] <- addflags(vx, vy)` (rule R212). -/
def execAdd (x y : Reg) (s : State) : Host.Outcome State Fault Refusal :=
  .next (s.writeResult x (addflags (s.readReg x) (s.readReg y)))

/-- SUBI: `regs[x] <- subflags(vx, imm)` (rule R216). -/
def execSubi (x : Reg) (imm : Word) (s : State) : Host.Outcome State Fault Refusal :=
  .next (s.writeResult x (subflags (s.readReg x) imm))

/-- SUB: `regs[x] <- subflags(vx, vy)` (rule R218). -/
def execSub (x y : Reg) (s : State) : Host.Outcome State Fault Refusal :=
  .next (s.writeResult x (subflags (s.readReg x) (s.readReg y)))

/-- SUB3: `regs[z] <- subflags(vx, vy)` (rule R220). -/
def execSub3 (x y z : Reg) (s : State) : Host.Outcome State Fault Refusal :=
  .next (s.writeResult z (subflags (s.readReg x) (s.readReg y)))

end Sys2Proof.Machine
end

