-- ==== Sys2Proof/Machine/Dispatch.lean ====
section
/-! DEFINITION. The dispatch: one arm per instruction (40_cycle.md rule R115). The state is the one the body
starts in, `pc` already advanced (rule R114). -/

namespace Sys2Proof.Machine

def exec (i : Instr) (s : State) : Host.Outcome State Fault Refusal :=
  match i with
  | .cls => Sys2Proof.Machine.execCls s
  | .vblnk => Sys2Proof.Machine.execVblnk s
  | .bgc n => Sys2Proof.Machine.execBgc n s
  | .spr w h => Sys2Proof.Machine.execSpr w h s
  | .drw x y imm => Sys2Proof.Machine.execDrw x y imm s
  | .jmp imm => Sys2Proof.Machine.execJmp imm s
  | .jz imm => Sys2Proof.Machine.execJz imm s
  | .jc imm => Sys2Proof.Machine.execJc imm s
  | .jme x y imm => Sys2Proof.Machine.execJme x y imm s
  | .ldi x imm => Sys2Proof.Machine.execLdi x imm s
  | .mov x y => Sys2Proof.Machine.execMov x y s
  | .add x y => Sys2Proof.Machine.execAdd x y s
  | .subi x imm => Sys2Proof.Machine.execSubi x imm s
  | .sub x y => Sys2Proof.Machine.execSub x y s
  | .sub3 x y z => Sys2Proof.Machine.execSub3 x y z s

end Sys2Proof.Machine
end

