-- ==== Sys2Proof/Machine/Cycle.lean ====
section
/-! DEFINITION. The fetch-decode-execute cycle (40_cycle.md rule R117): what one cycle of a core that may
run does. -/

namespace Sys2Proof.Machine

/-- Decode, advance, dispatch (rules R113 to R115): bytes that are no instruction raise after the advance
(60_exceptions.md rule R266). -/
def dispatchRaw (r : RawInstr) (s : State) : Host.Outcome State Fault Refusal :=
  match decode r with
  | .error e => .next (s.advance.raise s.pc r.toList (causeOfDecodeError e))
  | .ok i => exec i s.advance

/-- One cycle: fetch first, and a fetch out of bounds raises before anything changes (rule R112). -/
def cycle (s : State) : Host.Outcome State Fault Refusal :=
  match s.mem.fetch s.pc with
  | .error (bytes, bad) => .next (s.raise s.pc bytes (.memoryBounds bad))
  | .ok r => dispatchRaw r s

/-- What a cycle returns (rules R110, R262). -/
inductive CycleOutcome where
  /-- The cycle raised no fault. -/
  | continues
  /-- The cycle ended with this fault record, which the latch now holds. -/
  | fault (record : FaultRecord)
deriving DecidableEq, Repr

/-- The outcome of the cycle that answered the next state `s`, read from its latch (log entry 7). -/
def State.cycleOutcome (s : State) : CycleOutcome :=
  match s.fault with
  | none => .continues
  | some record => .fault record

end Sys2Proof.Machine
end

