-- ==== Sys2Proof/Machine/Step.lean ====
section
/-! DEFINITION. One step of the core: a cycle, where one can begin (40_cycle.md rule R111). -/

namespace Sys2Proof.Machine

/-- A cycle begins only if the host has not stopped the machine and the fault latch is empty; nothing else
gates it (rule R111). -/
def step (s : State) : Host.Outcome State Fault Refusal :=
  if s.stopped then .fault .stoppedByHost
  else
    match s.fault with
    | some record => .fault (.halted record)
    | none => cycle s

/-- The state with the table word `w` stored at `pc`, where `step` fetches its next instruction; the bits
from `nbits` on are 0 (log entry 20). -/
def State.withFetchWord (s : State) (nbits w : Nat) : State :=
  { s with mem := s.mem.storeInstr s.pc (RawInstr.ofTableWord (BitVec.ofNat 32 (w % 2 ^ nbits))) }

end Sys2Proof.Machine
end

