-- ==== Sys2Proof/Machine/Load.lean ====
section
/-! DEFINITION. The host's load, which is the only reset (50_agents_and_interfaces.md rules R243, R244;
70_reset_and_hazards.md rules R290, R291). -/

namespace Sys2Proof.Machine

/-- The reset state with `image` at address 0 and `pc` at `start`, which is not checked (rules R291, R245);
an image longer than the memory is refused (decision D31). -/
def launch (image : List Byte) (start : Word) : Host.Outcome State Fault Refusal :=
  if image.length ≤ Config.memSize then
    .next { State.reset with mem := Sparse.ofList Memory.unlisted 0 image, pc := start }
  else .refused .payloadTooLong

/-- The number whose bytes are listed, the lowest byte first (rule R244). -/
def littleEndian : List Byte → Nat
  | [] => 0
  | b :: rest => b.toNat + 256 * littleEndian rest

/-- What the core receives of a cartridge file: the payload and the start address (rule R244). The magic
tag, the version and the checksum do not reach the core. -/
structure Cartridge where
  image : List Byte
  start : Word
deriving DecidableEq, Repr

/-- The 16-byte header's payload size at offset 6 and start address at offset 10, then the payload
(rule R244); none if the file is truncated. -/
def readCartridge (file : List Byte) : Option Cartridge :=
  let size := littleEndian ((file.drop 6).take 4)
  let start := littleEndian ((file.drop 10).take 2)
  if 16 + size ≤ file.length then
    some { image := (file.drop 16).take size, start := BitVec.ofNat 16 start }
  else none

/-- The load of a cartridge file; a truncated one means no run exists (rule R243). -/
def loadCartridge (file : List Byte) : Host.Outcome State Fault Refusal :=
  match readCartridge file with
  | some c => launch c.image c.start
  | none => .refused .cartridgeTruncated

end Sys2Proof.Machine
end

