-- ==== Sys2Proof/Machine/Agents.lean ====
section
/-! DEFINITION. The agents beside the core and their interleaving (50_agents_and_interfaces.md): every event
is one atomic step, and a schedule is a list of events (rules R65, R235, R240). -/

namespace Sys2Proof.Machine

/-- Where the display agent stands in its tick: each tick presents first and then sets the latch (rule
R240). -/
inductive DisplayPhase where
  /-- The next display step is present. -/
  | idle
  /-- This tick's present is done; the next display step is set-latch. -/
  | presented
deriving DecidableEq, Repr

/-- The machine with the display agent beside it. -/
structure System where
  machine : State
  phase : DisplayPhase
  /-- The frame the display agent showed last. -/
  shown : Option Framebuffer
deriving DecidableEq, Repr

/-- Which agent moves: the core, the display agent with one of its two steps, or the host with stop. -/
inductive Event where
  | cycle
  | present
  | setLatch
  | stop
deriving DecidableEq, Repr

/-- The set-latch step's effect: `vblank <- 1` and nothing else (rule R239). -/
def State.setLatch (s : State) : State := { s with vblank := true }

/-- The host's stop (rule R246). -/
def State.stop (s : State) : State := { s with stopped := true }

/-- The system when the core and the display agent start (rules R243, R245). -/
def System.start (s : State) : System := { machine := s, phase := .idle, shown := none }

/-- One event, where it can happen: after the stop nothing does (rule R246), a core without a step has no
cycle (rule R265), and within a tick the present precedes the set-latch (rule R240). -/
def System.next (e : Event) (y : System) : Option System :=
  if y.machine.stopped then none
  else
    match e, y.phase with
    | .cycle, _ =>
      match step y.machine with
      | .next t => some { y with machine := t }
      | .fault _ => none
      | .refused _ => none
    | .present, .idle => some { y with phase := .presented, shown := some y.machine.fb }
    | .present, .presented => none
    | .setLatch, .presented => some { y with machine := y.machine.setLatch, phase := .idle }
    | .setLatch, .idle => none
    | .stop, _ => some { y with machine := y.machine.stop }

/-- A schedule of events run in order; none if one of them cannot happen. -/
def System.run : List Event → System → Option System
  | [], y => some y
  | e :: rest, y =>
    match y.next e with
    | some y' => System.run rest y'
    | none => none

end Sys2Proof.Machine
end

