-- ==== Sys2Proof/Safety.lean ====
section
/-! DEFINITION. What a safe run is: the fault latch is empty (60_exceptions.md rule R265), the invariant
every step keeps, and the terms in which claims say what an instruction leaves unchanged. -/

namespace Sys2Proof

open Sys2Proof.Machine

/-- The safety predicate of rule R265. -/
def Safe (s : State) : Prop := s.fault = none

/-- The core can begin a cycle (40_cycle.md rule R111). -/
def CanStep (s : State) : Prop := s.stopped = false ∧ s.fault = none

/-- The states a run of the core from `s` goes through. -/
inductive Reaches : State → State → Prop where
  | refl (s : State) : Reaches s s
  | step {s t u : State} : Reaches s t → Machine.step t = .next u → Reaches s u

/-- A run in which no fault is ever raised. -/
def SafeRun (s : State) : Prop := ∀ t, Reaches s t → Safe t

/-- The record's cause is one that its bytes or the memory's bound show (rule R263). -/
def RecordJustified (r : FaultRecord) : Prop :=
  match r.cause with
  | .unrecognizedOpcode op => r.bytes[0]? = some op ∧ legalOpcode op = false
  | .unrecognizedCondition sel =>
    r.bytes[0]? = some 0x12 ∧ r.bytes[1]?.map lowNibble = some sel ∧ legalSelector sel = false
  | .memoryBounds a => Config.memSize ≤ uval a

/-- The invariant of the machine: memory and framebuffer keep their canonical form, and a latched record is
justified and names the instruction at which `pc` stands, or which it has just passed (rule R266). -/
structure Inv (s : State) : Prop where
  mem : s.mem.wf = true
  fb : s.fb.wf = true
  latch : ∀ r, s.fault = some r → RecordJustified r
  pc : ∀ r, s.fault = some r → s.pc = r.addr ∨ s.pc = r.addr + 4

/-- The four bytes at `pc`, read one by one from memory, are these (40_cycle.md rule R112). -/
def BytesAtPc (s : State) (b0 b1 b2 b3 : Byte) : Prop :=
  s.mem.read s.pc = .ok b0 ∧ s.mem.read (s.pc + 1) = .ok b1 ∧ s.mem.read (s.pc + 2) = .ok b2 ∧
    s.mem.read (s.pc + 3) = .ok b3

/-- Every general register is unchanged. -/
def SameRegs (s t : State) : Prop := ∀ j, t.readReg j = s.readReg j

/-- Every general register but `i` is unchanged. -/
def SameRegsBut (i : Reg) (s t : State) : Prop := ∀ j, j ≠ i → t.readReg j = s.readReg j

/-- The display-control registers `bg`, `fg`, `spritew`, `spriteh` and the latch are unchanged. -/
def SameDisplay (s t : State) : Prop :=
  t.bg = s.bg ∧ t.fg = s.fg ∧ t.spritew = s.spritew ∧ t.spriteh = s.spriteh ∧ t.vblank = s.vblank

/-- Every byte of memory reads as before. -/
def SameMemory (s t : State) : Prop := ∀ a, t.mem.read a = s.mem.read a

/-- Every framebuffer cell reads as before. -/
def SameScreen (s t : State) : Prop := ∀ px py, t.fb.read px py = s.fb.read px py

/-- `sp`, the fault latch and the host's stop are unchanged. -/
def SameRest (s t : State) : Prop := t.sp = s.sp ∧ t.fault = s.fault ∧ t.stopped = s.stopped

/-- ADD, SUBI, SUB and SUB3, the document's "arithmetic opcodes" (45_arithmetic_flags.md rule R205). -/
def isArithmetic : Instr → Bool
  | .add _ _ | .subi _ _ | .sub _ _ | .sub3 _ _ _ => true
  | .cls | .vblnk | .bgc _ | .spr _ _ | .drw _ _ _ | .jmp _ | .jz _ | .jc _ | .jme _ _ _ | .ldi _ _
  | .mov _ _ => false

/-- The general register an instruction writes, if any (10_state.md rule R22). -/
def destReg : Instr → Option Reg
  | .ldi x _ | .mov x _ | .add x _ | .subi x _ | .sub x _ => some x
  | .sub3 _ _ z => some z
  | .cls | .vblnk | .bgc _ | .spr _ _ | .drw _ _ _ | .jmp _ | .jz _ | .jc _ | .jme _ _ _ => none

/-- `pc` after the cycle of an instruction fetched at `s.pc`, whether or not its body raises (10_state.md
rule R24). -/
def pcAfter (i : Instr) (s : State) : Word :=
  match i with
  | .vblnk => if s.vblank then s.pc + 4 else s.pc
  | .jmp imm => imm
  | .jz imm => if s.flags.z then imm else s.pc + 4
  | .jc imm => if s.flags.c then imm else s.pc + 4
  | .jme x y imm => if s.readReg x = s.readReg y then imm else s.pc + 4
  | .cls | .bgc _ | .spr _ _ | .drw _ _ _ | .ldi _ _ | .mov _ _ | .add _ _ | .subi _ _ | .sub _ _
  | .sub3 _ _ _ => s.pc + 4

/-- The two states differ at most in what no instruction reads: `sp`, `fg`, Overflow and Negative
(10_state.md rules R25, R27, R29). -/
def AgreeOnRead (s s' : State) : Prop :=
  s' = { s with sp := s'.sp, fg := s'.fg, flags := { s.flags with o := s'.flags.o, n := s'.flags.n } }

/-- The palette index the sprite of a DRW puts at a pixel position, 0 where the sprite does not reach: row
`py - Y`, byte `(px - X) / 2` of that row, high nibble for an even column (42_draw.md rules R153, R155). -/
def spriteIndex (s : State) (X Y : Int) (imm : Word) (px py : Int) : Nibble :=
  let cx := px - X
  let cy := py - Y
  if 0 ≤ cx ∧ cx < 2 * s.spritew.toNat ∧ 0 ≤ cy ∧ cy < s.spriteh.toNat then
    let b := s.mem.byteAt (uval imm + (cy.toNat * s.spritew.toNat + cx.toNat / 2))
    if cx.toNat % 2 = 0 then highNibble b else lowNibble b
  else 0

end Sys2Proof
end

