-- ==== Sys2Proof/Certificates/Slice0/Obligations.lean ====
section
/-! DEFINITION. The statements for the provers. The state `s` of a statement about `exec` is the one the body
starts in: `pc` is already advanced (40_cycle.md rule R114). A statement that rests on one of the spec's own
decisions D<n>, or on a choice of the model, says so in its docstring. -/

open Sys2Proof Sys2Proof.Machine

/-! Encoding -/

/-- Words written out bit by bit from the opcode map of 30_encoding.md section 2, one or two a family, decode to
the instructions they stand for. The words of BGC, JC and SUB3 carry ignored bits that are not 0, and decode so
by decisions D9 and D10 (log entry 13). -/
def Obligations.WordsWrittenFromTheSpecDecode : Prop :=
  decode ⟨0b00000001, 0, 0, 0⟩ = .ok .cls ∧
  decode ⟨0b00000011, 0b11111111, 0b11110101, 0b11111111⟩ = .ok (.bgc 5) ∧
  decode ⟨0b00000101, 0b00010000, 0b00000000, 0b00000001⟩ = .ok (.drw 0 1 0x0100) ∧
  decode ⟨0b00010010, 0b00111001, 0b01000000, 0b00000000⟩ = .ok (.jc 0x0040) ∧
  decode ⟨0b00100000, 0b00000000, 0b00110100, 0b00010010⟩ = .ok (.ldi 0 0x1234) ∧
  decode ⟨0b00100100, 0b01110010, 0b00000000, 0b00000000⟩ = .ok (.mov 2 7) ∧
  decode ⟨0b01010010, 0b00100001, 0b11110011, 0b01110111⟩ = .ok (.sub3 1 2 3)

/-- Decoding what the encoder writes gives the instruction back, for every instruction and every value of its
operands. -/
def Obligations.DecodeOfEncodeIsTheInstruction : Prop :=
  ∀ i : Instr, decode (encode i) = .ok i

/-- The decoder drops no bit that a row of the opcode table uses: what it reads, encoded again, agrees with the
word on every bit but the row's ignored ones. Which bits are ignored is decisions D9 and D10 (log entry 13). -/
def Obligations.DecodedInstructionKeepsTheUsedBits : Prop :=
  ∀ (r : RawInstr) (i : Instr), decode r = .ok i →
    ∃ row ∈ opcodeTable,
      row.mnemonic = i.mnemonic ∧ row.selects r = true ∧ row.sameUsedBits r (encode i) = true

/-- Four bytes decode exactly if they match a row of the opcode table, and no word matches two rows. The width
of the selector is decision D10 (log entry 13). -/
def Obligations.DecoderAcceptsExactlyTheTable : Prop :=
  (∀ r : RawInstr, (∃ i, decode r = .ok i) ↔ ∃ row ∈ opcodeTable, row.selects r = true) ∧
  ∀ (r : RawInstr), ∀ row ∈ opcodeTable, ∀ row' ∈ opcodeTable,
    row.selects r = true → row'.selects r = true → row = row'

/-- Two words that agree on every bit a row uses decode to the same instruction. It rests on the spec's own
decisions D9 and D10 (log entry 13). -/
def Obligations.IgnoredBitsNeverMatter : Prop :=
  ∀ row ∈ opcodeTable, ∀ r r' : RawInstr, row.selects r = true → row.sameUsedBits r r' = true →
    decode r' = decode r

/-- The decoder rejects exactly the 242 other opcode bytes, by their name, and exactly the fourteen other
selectors of opcode 0x12, by theirs. The width of the selector is decision D10 (log entry 13). -/
def Obligations.DecoderRejectsExactlyTheIllegal : Prop :=
  (∀ (r : RawInstr) (op : Byte),
    decode r = .error (.unrecognizedOpcode op) ↔ op = r.b0 ∧ r.b0 ∉ legalOpcodes) ∧
  ∀ (r : RawInstr) (sel : Nibble),
    decode r = .error (.unrecognizedCondition sel) ↔
      r.b0 = 0x12 ∧ sel = lowNibble r.b1 ∧ sel ≠ 0 ∧ sel ≠ 9

/-! The cycle -/

/-- Where the bytes at `pc` decode to an instruction, a step is its body run on the state with `pc` advanced
by 4. -/
def Obligations.StepRunsTheDecodedInstruction : Prop :=
  ∀ (s : State) (b0 b1 b2 b3 : Byte) (i : Instr), CanStep s → BytesAtPc s b0 b1 b2 b3 →
    decode ⟨b0, b1, b2, b3⟩ = .ok i → step s = exec i { s with pc := s.pc + 4 }

/-- With 65,535 bytes of memory (decision D1, log entry 1) the fetch raises exactly from 0xFFFC on: the latch
names 0xFFFF and the bytes fetched before it, and nothing else changes. Below, the four bytes are there and the
step is the decoding, advance and dispatch of those bytes. The latch is decision D12 and the faulted `pc` D13
(log entries 7, 18). -/
def Obligations.FetchRaisesExactlyFromFFFC : Prop :=
  ∀ s : State, CanStep s →
    (0xFFFC ≤ uval s.pc → ∃ bs : List Byte,
      bs.length = 0xFFFF - uval s.pc ∧
      (∀ k, k < bs.length → bs[k]? = some (s.mem.byteAt (uval s.pc + k))) ∧
      step s =
        .next { s with fault := some { cause := .memoryBounds 0xFFFF, addr := s.pc, bytes := bs } }) ∧
    (uval s.pc < 0xFFFC → ∃ b0 b1 b2 b3 : Byte, BytesAtPc s b0 b1 b2 b3 ∧
      b0 = s.mem.byteAt (uval s.pc) ∧ b1 = s.mem.byteAt (uval s.pc + 1) ∧
      b2 = s.mem.byteAt (uval s.pc + 2) ∧ b3 = s.mem.byteAt (uval s.pc + 3) ∧
      step s = dispatchRaw ⟨b0, b1, b2, b3⟩ s)

/-- An illegal opcode, and opcode 0x12 with an illegal selector, set the latch after the advance and change
nothing else. The latch and the faulted `pc` are decisions D12 and D13, the width of the selector is D10 (log
entries 7, 13, 18). -/
def Obligations.UnrecognizedWordRaisesAfterTheAdvance : Prop :=
  ∀ (s : State) (b0 b1 b2 b3 : Byte), CanStep s → BytesAtPc s b0 b1 b2 b3 →
    (b0 ∉ legalOpcodes →
      step s = .next { s with
        pc := s.pc + 4
        fault := some { cause := .unrecognizedOpcode b0, addr := s.pc, bytes := [b0, b1, b2, b3] } }) ∧
    (b0 = 0x12 → lowNibble b1 ≠ 0 → lowNibble b1 ≠ 9 →
      step s = .next { s with
        pc := s.pc + 4
        fault := some { cause := .unrecognizedCondition (lowNibble b1), addr := s.pc,
                        bytes := [b0, b1, b2, b3] } })

/-- The core has no step exactly if its fault latch is set or the host has stopped it, and no step is ever
refused: nothing else gates a cycle. The latch is decision D12, the stop D25 (log entries 7, 8). -/
def Obligations.NoStepExactlyIfFaultedOrStopped : Prop :=
  ∀ s : State,
    ((∃ f, step s = .fault f) ↔ s.fault ≠ none ∨ s.stopped = true) ∧ ∀ r, step s ≠ .refused r

/-- A raise is precise: the record names the instruction, its cause is justified, its bytes are those in memory
from there, and the state differs from the one before at most in the advance of `pc` and the latch. It rests
on decisions D12, D13 and D15 (log entries 7, 15, 18). -/
def Obligations.RaiseIsPrecise : Prop :=
  ∀ (s t : State) (r : FaultRecord), CanStep s → step s = .next t → t.fault = some r →
    r.addr = s.pc ∧ (t.pc = s.pc ∨ t.pc = s.pc + 4) ∧
    t = { s with pc := t.pc, fault := some r } ∧ RecordJustified r ∧
    ∀ k, k < r.bytes.length →
      ∃ b, r.bytes[k]? = some b ∧ s.mem.read (s.pc + BitVec.ofNat 16 k) = .ok b

/-- No body but DRW's raises. -/
def Obligations.OnlyDrawRaisesInItsBody : Prop :=
  ∀ (i : Instr) (s : State), (∀ x y imm, i ≠ .drw x y imm) →
    ∃ t, exec i s = .next t ∧ t.fault = s.fault

/-! Display control -/

/-- CLS: `fg` and `bg` are 0, every cell holds `PALETTE(0)` whatever `bg` was, and nothing else changes. The
order of its two actions is decision D19 (log entry 16). That unused bits are ignored is decision D9 (log entry
13). -/
def Obligations.ClsFillsTheScreenWithTransparent : Prop :=
  (∀ b1 b2 b3, decode ⟨0x01, b1, b2, b3⟩ = .ok .cls) ∧
  ∀ s : State, ∃ t, exec .cls s = .next t ∧ t.fg = 0 ∧ t.bg = 0 ∧
    (∀ px py, inRange px py = true → t.fb.read px py = some (Config.palette 0)) ∧
    t.pc = s.pc ∧ SameRegs s t ∧ t.flags = s.flags ∧ t.spritew = s.spritew ∧ t.spriteh = s.spriteh ∧
    t.vblank = s.vblank ∧ SameMemory s t ∧ SameRest s t

/-- VBLNK completes when the latch is set, clearing it and changing nothing else; when it is clear the body
undoes the advance and changes nothing else. That the set case does no more is decision D32 (log entry 16). That
unused bits are ignored is decision D9 (log entry 13). -/
def Obligations.VblnkClearsTheLatchOrRewinds : Prop :=
  (∀ b1 b2 b3, decode ⟨0x02, b1, b2, b3⟩ = .ok .vblnk) ∧
  ∀ s : State,
    (s.vblank = true → exec .vblnk s = .next { s with vblank := false }) ∧
    (s.vblank = false → exec .vblnk s = .next { s with pc := s.pc - 4 })

/-- A VBLNK cycle with the latch clear changes nothing at all, at every address. That unused bits are ignored is
decision D9 (log entry 13). -/
def Obligations.VblnkWaitLeavesTheWholeState : Prop :=
  ∀ (s : State) (b1 b2 b3 : Byte), CanStep s → BytesAtPc s 0x02 b1 b2 b3 → s.vblank = false →
    step s = .next s

/-- BGC writes `bg` and nothing else, no cell among them. That nothing is repainted is decision D33 (log entry
16). That unused bits are ignored is decision D9 (log entry 13). -/
def Obligations.BgcWritesTheBackgroundIndexOnly : Prop :=
  (∀ b1 b2 b3, decode ⟨0x03, b1, b2, b3⟩ = .ok (.bgc (lowNibble b2))) ∧
  ∀ (n : Nibble) (s : State), ∃ t, exec (.bgc n) s = .next t ∧ t.bg = n ∧
    t.pc = s.pc ∧ SameRegs s t ∧ t.flags = s.flags ∧ t.fg = s.fg ∧ t.spritew = s.spritew ∧
    t.spriteh = s.spriteh ∧ t.vblank = s.vblank ∧ SameMemory s t ∧ SameScreen s t ∧ SameRest s t

/-- SPR writes the third byte to `spritew` and the fourth to `spriteh` and nothing else, and the values stay
until the next SPR: no other body changes them. That DRW leaves them is decision D37 (log entry 15), that unused
bits are ignored D9 (log entry 13). -/
def Obligations.SprSetsTheDimensionsUntilTheNextSpr : Prop :=
  (∀ b1 b2 b3, decode ⟨0x04, b1, b2, b3⟩ = .ok (.spr b2 b3)) ∧
  (∀ (w h : Byte) (s : State), ∃ t, exec (.spr w h) s = .next t ∧ t.spritew = w ∧ t.spriteh = h ∧
    t.pc = s.pc ∧ SameRegs s t ∧ t.flags = s.flags ∧ t.bg = s.bg ∧ t.fg = s.fg ∧
    t.vblank = s.vblank ∧ SameMemory s t ∧ SameScreen s t ∧ SameRest s t) ∧
  ∀ (i : Instr) (s t : State), exec i s = .next t → (∀ w h, i ≠ .spr w h) →
    t.spritew = s.spritew ∧ t.spriteh = s.spriteh

/-! DRW -/

/-- DRW whose source bytes exist completes. Pixel by pixel: an in-range cell where the sprite's index is not 0
holds that index's colour, every other cell is as before, and nothing else changes but Carry. The signed
position, the clipping and the order of reads and writes are decisions D15 and D16, that Z, O and N stay is D18,
that the dimensions stay is D37 (log entry 15), the bound is D1 (log entry 1). -/
def Obligations.DrwPaintsExactlyTheSprite : Prop :=
  ∀ (x y : Reg) (imm : Word) (s : State), s.fb.wf = true →
    (s.spritew.toNat * s.spriteh.toNat = 0 ∨
      uval imm + s.spritew.toNat * s.spriteh.toNat ≤ 65535) →
    ∃ t, exec (.drw x y imm) s = .next t ∧
      (∀ px py, t.fb.read px py =
        if inRange px py = true ∧
            spriteIndex s (sval (s.readReg x)) (sval (s.readReg y)) imm px py ≠ 0 then
          some (Config.palette
            (spriteIndex s (sval (s.readReg x)) (sval (s.readReg y)) imm px py))
        else s.fb.read px py) ∧
      t.pc = s.pc ∧ SameRegs s t ∧ t.flags.z = s.flags.z ∧ t.flags.o = s.flags.o ∧
      t.flags.n = s.flags.n ∧ SameDisplay s t ∧ SameMemory s t ∧ SameRest s t

/-- The same DRW leaves Carry 1 exactly if some in-range pixel of the sprite that is not transparent lands on a
cell whose colour, as it was before the whole DRW, is not `PALETTE(bg)`; the Carry before is lost. The packed
comparison is decision D17, the signed position and the clipping D16 (log entry 15), the bound D1 (log entry 1).
-/
def Obligations.DrwCarryReportsTheCollision : Prop :=
  ∀ (x y : Reg) (imm : Word) (s : State), s.fb.wf = true →
    (s.spritew.toNat * s.spriteh.toNat = 0 ∨
      uval imm + s.spritew.toNat * s.spriteh.toNat ≤ 65535) →
    ∃ t, exec (.drw x y imm) s = .next t ∧
      (t.flags.c = true ↔ ∃ px py, inRange px py = true ∧
        spriteIndex s (sval (s.readReg x)) (sval (s.readReg y)) imm px py ≠ 0 ∧
        s.fb.read px py ≠ some (Config.palette s.bg))

/-- DRW whose source run contains 0xFFFF raises with no effect but the latch: no cell and no flag changes. The
run and the record are those of decisions D1, D12, D13 and D15 (log entries 1, 7, 15, 18). -/
def Obligations.DrwOutOfBoundsRaisesWithNoEffect : Prop :=
  ∀ (x y : Reg) (imm : Word) (s : State),
    0 < s.spritew.toNat * s.spriteh.toNat →
    65535 < uval imm + s.spritew.toNat * s.spriteh.toNat →
    exec (.drw x y imm) s = .next { s with
      fault := some { cause := .memoryBounds 0xFFFF, addr := s.pc - 4,
                      bytes := [0x05, y ++ x, lowByte imm, highByte imm] } }

/-- The pixels of a sprite may be plotted in any order: the framebuffer and the hit are the same. The positions
and the comparison are decisions D16 and D17 (log entry 15). -/
def Obligations.PixelOrderIsUnobservable : Prop :=
  ∀ (data : List Byte) (w h : Nat) (X Y : Int) (bg : Nibble) (fb : Framebuffer)
    (order : List SpritePixel), fb.wf = true → order.Perm (spritePixels w h X Y data) →
    order.foldl (plot (Config.palette bg)) (fb, false) = rasterize data w h X Y bg fb

/-- A transparent pixel does nothing wherever it lands, and a DRW of a sprite all of whose bytes are 0 clears
Carry and changes nothing else. The bound is decision D1 (log entry 1), that Z, O and N stay is D18, and that
the dimensions stay is D37 (log entry 15). -/
def Obligations.TransparentPixelsDoNothing : Prop :=
  (∀ (c : Pixel) (acc : Framebuffer × Bool) (p : SpritePixel), p.idx = 0 → plot c acc p = acc) ∧
  ∀ (x y : Reg) (imm : Word) (s : State),
    (s.spritew.toNat * s.spriteh.toNat = 0 ∨
      uval imm + s.spritew.toNat * s.spriteh.toNat ≤ 65535) →
    (∀ k, k < s.spritew.toNat * s.spriteh.toNat → s.mem.byteAt (uval imm + k) = 0) →
    exec (.drw x y imm) s = .next { s with flags := { s.flags with c := false } }

/-! Jumps -/

/-- JMP sets `pc` to its field, any 16-bit value, and changes nothing else; from a target at or above 0xFFFC the
next cycle raises. That unused bits are ignored is decision D9 (log entry 13), the bound D1 and the latch D12
(log entries 1, 7). -/
def Obligations.JmpSetsPcToAnyTarget : Prop :=
  (∀ b1 b2 b3, decode ⟨0x10, b1, b2, b3⟩ = .ok (.jmp (b3 ++ b2))) ∧
  ∀ (imm : Word) (s : State), ∃ t, exec (.jmp imm) s = .next t ∧ t.pc = imm ∧
    SameRegs s t ∧ t.flags = s.flags ∧ SameDisplay s t ∧ SameMemory s t ∧ SameScreen s t ∧
    SameRest s t ∧
    (CanStep s → 0xFFFC ≤ uval imm → ∃ u r, step t = .next u ∧ u.fault = some r ∧
      r.cause = .memoryBounds 0xFFFF)

/-- JZ sets `pc` to its field if Zero is 1 and leaves the advanced `pc` otherwise; nothing else changes. The
selector and the target are decisions D10 and D11 (log entries 13, 17). -/
def Obligations.JzJumpsExactlyOnZero : Prop :=
  (∀ (y : Nibble) (b2 b3 : Byte), decode ⟨0x12, y ++ (0 : Nibble), b2, b3⟩ = .ok (.jz (b3 ++ b2))) ∧
  ∀ (imm : Word) (s : State), ∃ t, exec (.jz imm) s = .next t ∧
    t.pc = (if s.flags.z = true then imm else s.pc) ∧
    SameRegs s t ∧ t.flags = s.flags ∧ SameDisplay s t ∧ SameMemory s t ∧ SameScreen s t ∧
    SameRest s t

/-- JC sets `pc` to its field if Carry is 1 and leaves the advanced `pc` otherwise; nothing else changes. The
selector and the target are decisions D10 and D11 (log entries 13, 17). -/
def Obligations.JcJumpsExactlyOnCarry : Prop :=
  (∀ (y : Nibble) (b2 b3 : Byte), decode ⟨0x12, y ++ (9 : Nibble), b2, b3⟩ = .ok (.jc (b3 ++ b2))) ∧
  ∀ (imm : Word) (s : State), ∃ t, exec (.jc imm) s = .next t ∧
    t.pc = (if s.flags.c = true then imm else s.pc) ∧
    SameRegs s t ∧ t.flags = s.flags ∧ SameDisplay s t ∧ SameMemory s t ∧ SameScreen s t ∧
    SameRest s t

/-- JME jumps exactly if its registers are equal as signed 16-bit values, which is the same as all 16 bits equal;
always if they are one register; and it touches no flag. -/
def Obligations.JmeJumpsExactlyOnEqualRegisters : Prop :=
  (∀ b1 b2 b3, decode ⟨0x13, b1, b2, b3⟩ = .ok (.jme (lowNibble b1) (highNibble b1) (b3 ++ b2))) ∧
  ∀ (x y : Reg) (imm : Word) (s : State), ∃ t, exec (.jme x y imm) s = .next t ∧
    (sval (s.readReg x) = sval (s.readReg y) → t.pc = imm) ∧
    (sval (s.readReg x) ≠ sval (s.readReg y) → t.pc = s.pc) ∧
    (sval (s.readReg x) = sval (s.readReg y) ↔ s.readReg x = s.readReg y) ∧
    (x = y → t.pc = imm) ∧
    SameRegs s t ∧ t.flags = s.flags ∧ SameDisplay s t ∧ SameMemory s t ∧ SameScreen s t ∧
    SameRest s t

/-! Moves -/

/-- LDI copies all 16 bits of its field to register `x`; no flag and nothing else changes. That unused bits are
ignored is decision D9 (log entry 13). -/
def Obligations.LdiLoadsTheField : Prop :=
  (∀ b1 b2 b3, decode ⟨0x20, b1, b2, b3⟩ = .ok (.ldi (lowNibble b1) (b3 ++ b2))) ∧
  ∀ (x : Reg) (imm : Word) (s : State), ∃ t, exec (.ldi x imm) s = .next t ∧
    t.readReg x = imm ∧ SameRegsBut x s t ∧ t.pc = s.pc ∧ t.flags = s.flags ∧
    SameDisplay s t ∧ SameMemory s t ∧ SameScreen s t ∧ SameRest s t

/-- MOV copies register `y` to register `x`; no flag and nothing else changes. That unused bits are ignored is
decision D9 (log entry 13). -/
def Obligations.MovCopiesTheRegister : Prop :=
  (∀ b1 b2 b3, decode ⟨0x24, b1, b2, b3⟩ = .ok (.mov (lowNibble b1) (highNibble b1))) ∧
  ∀ (x y : Reg) (s : State), ∃ t, exec (.mov x y) s = .next t ∧
    t.readReg x = s.readReg y ∧ SameRegsBut x s t ∧ t.pc = s.pc ∧ t.flags = s.flags ∧
    SameDisplay s t ∧ SameMemory s t ∧ SameScreen s t ∧ SameRest s t

/-! Arithmetic and flags -/

/-- ADD writes the wrapped signed sum of the values read before the write, Carry 1 whatever the operands,
Overflow exactly if the exact sum is out of range, Zero and Negative from the result; nothing else changes. That
unused bits are ignored is decision D9 (log entry 13). -/
def Obligations.AddWritesTheWrappedSumAndFlags : Prop :=
  (∀ b1 b2 b3, decode ⟨0x41, b1, b2, b3⟩ = .ok (.add (lowNibble b1) (highNibble b1))) ∧
  ∀ (x y : Reg) (s : State), ∃ t, exec (.add x y) s = .next t ∧
    (∃ k : Int, sval (t.readReg x) = sval (s.readReg x) + sval (s.readReg y) + 65536 * k) ∧
    t.flags.c = true ∧
    (t.flags.z = true ↔ t.readReg x = 0) ∧
    (t.flags.o = true ↔ sval (s.readReg x) + sval (s.readReg y) < -32768 ∨
      32767 < sval (s.readReg x) + sval (s.readReg y)) ∧
    (t.flags.n = true ↔ sval (t.readReg x) < 0) ∧
    SameRegsBut x s t ∧ t.pc = s.pc ∧
    SameDisplay s t ∧ SameMemory s t ∧ SameScreen s t ∧ SameRest s t

/-- ADD sets Overflow exactly if its operands have the same sign and the result's sign differs from theirs,
which is the same as an exact sum outside the 16-bit range. -/
def Obligations.AddOverflowBySignsIsOutOfRange : Prop :=
  ∀ (x y : Reg) (s : State), ∃ t, exec (.add x y) s = .next t ∧
    (t.flags.o = true ↔ (s.readReg x).msb = (s.readReg y).msb ∧
      (t.readReg x).msb ≠ (s.readReg x).msb) ∧
    (t.flags.o = true ↔ sval (s.readReg x) + sval (s.readReg y) < -32768 ∨
      32767 < sval (s.readReg x) + sval (s.readReg y))

/-- Zero and Negative of every arithmetic opcode follow the 16-bit value that its destination register then
holds. -/
def Obligations.ZeroAndNegativeFollowTheResult : Prop :=
  ∀ (i : Instr) (s t : State) (d : Reg), isArithmetic i = true → destReg i = some d →
    exec i s = .next t →
    (t.flags.z = true ↔ t.readReg d = 0) ∧ (t.flags.n = true ↔ sval (t.readReg d) < 0)

/-- Every arithmetic opcode writes all four flags from its own execution: whatever the flags were before, the
next state is the same. -/
def Obligations.ArithmeticKeepsNoEarlierFlag : Prop :=
  ∀ (i : Instr) (s : State) (f : Flags), isArithmetic i = true →
    ∃ t, exec i s = .next t ∧ exec i { s with flags := f } = .next t

/-- The three subtractions of minuend `m` and subtrahend `u`: the destination holds the wrapped difference of
the values read before the write, Carry is the signed comparison, Overflow says that the exact difference is out
of range, Zero and Negative follow the result; nothing else changes. The signed Carry, the Overflow and the
signed immediate are decisions D20, D21 and D22 (log entry 14). That unused bits are ignored is decision D9 (log
entry 13). -/
def Obligations.SubtractionsWriteTheWrappedDifferenceAndFlags : Prop :=
  (∀ b1 b2 b3, decode ⟨0x50, b1, b2, b3⟩ = .ok (.subi (lowNibble b1) (b3 ++ b2))) ∧
  (∀ b1 b2 b3, decode ⟨0x51, b1, b2, b3⟩ = .ok (.sub (lowNibble b1) (highNibble b1))) ∧
  (∀ b1 b2 b3,
    decode ⟨0x52, b1, b2, b3⟩ = .ok (.sub3 (lowNibble b1) (highNibble b1) (lowNibble b2))) ∧
  ∀ (i : Instr) (s : State) (d : Reg) (m u : Word),
    (∃ x imm, i = .subi x imm ∧ d = x ∧ m = s.readReg x ∧ u = imm) ∨
      (∃ x y, i = .sub x y ∧ d = x ∧ m = s.readReg x ∧ u = s.readReg y) ∨
      (∃ x y z, i = .sub3 x y z ∧ d = z ∧ m = s.readReg x ∧ u = s.readReg y) →
    ∃ t, exec i s = .next t ∧
      (∃ k : Int, sval (t.readReg d) = sval m - sval u + 65536 * k) ∧
      (t.flags.c = true ↔ sval m < sval u) ∧
      (t.flags.z = true ↔ t.readReg d = 0) ∧
      (t.flags.o = true ↔ sval m - sval u < -32768 ∨ 32767 < sval m - sval u) ∧
      (t.flags.n = true ↔ sval (t.readReg d) < 0) ∧
      SameRegsBut d s t ∧ t.pc = s.pc ∧
      SameDisplay s t ∧ SameMemory s t ∧ SameScreen s t ∧ SameRest s t

/-- SUB and SUB3 of the same registers, and SUBI of the same values, leave equal flags and the same result in
their destinations; SUB3 leaves a source register as it was unless it is the destination. That the immediate of
SUBI is read as signed, as a register is, is decision D22, and the Carry and Overflow that they share are D20
and D21 (log entry 14). -/
def Obligations.SubtractionVariantsAgree : Prop :=
  ∀ (x y z : Reg) (s : State), ∃ t u v,
    exec (.sub x y) s = .next t ∧ exec (.sub3 x y z) s = .next u ∧
    exec (.subi x (s.readReg y)) s = .next v ∧
    u.flags = t.flags ∧ v.flags = t.flags ∧
    u.readReg z = t.readReg x ∧ v.readReg x = t.readReg x ∧
    (z ≠ x → u.readReg x = s.readReg x) ∧ (z ≠ y → u.readReg y = s.readReg y)

/-- A subtraction overflows exactly if its operands' signs differ and the result's sign differs from the
minuend's. It rests on decision D21 (log entry 14). -/
def Obligations.SubOverflowBySigns : Prop :=
  ∀ m u : Word, (subflags m u).2.o = true ↔ m.msb ≠ u.msb ∧ (subflags m u).1.msb ≠ m.msb

/-- The Carry of a subtraction is the unsigned borrow exactly where the operands' signs agree, and its opposite
where they differ. It rests on decision D20 (log entry 14). -/
def Obligations.SubCarryIsTheBorrowIfSignsAgree : Prop :=
  ∀ m u : Word,
    (m.msb = u.msb → ((subflags m u).2.c = true ↔ uval m < uval u)) ∧
    (m.msb ≠ u.msb → ((subflags m u).2.c = true ↔ ¬uval m < uval u))

/-- After any ADD a JC jumps. The target of JC is decision D11 (log entry 17). -/
def Obligations.JcAfterAddAlwaysJumps : Prop :=
  ∀ (x y : Reg) (imm : Word) (s : State), ∃ t, exec (.add x y) s = .next t ∧
    exec (.jc imm) { t with pc := t.pc + 4 } = .next { t with pc := imm }

/-- Who writes and who reads each flag. Z, O and N are written by the arithmetic opcodes only and C by those and
DRW; every arithmetic opcode writes all four; DRW that completes loses the C before; JZ reads Z alone and JC
reads C alone; the body of no other instruction depends on any flag. That DRW leaves Z, O and N is decision D18
(log entry 15). -/
def Obligations.FlagWritersAndReaders : Prop :=
  (∀ (i : Instr) (s t : State), exec i s = .next t → isArithmetic i = false →
    t.flags.z = s.flags.z ∧ t.flags.o = s.flags.o ∧ t.flags.n = s.flags.n ∧
    ((∀ x y imm, i ≠ .drw x y imm) → t.flags.c = s.flags.c)) ∧
  (∀ (i : Instr) (s : State) (f : Flags), isArithmetic i = true →
    exec i { s with flags := f } = exec i s) ∧
  (∀ (x y : Reg) (imm : Word) (s t : State) (b : Bool), exec (.drw x y imm) s = .next t →
    t.fault = s.fault → s.fault = none →
    exec (.drw x y imm) { s with flags := { s.flags with c := b } } = .next t) ∧
  (∀ (imm : Word) (s : State) (f : Flags), f.z = s.flags.z →
    ∃ t, exec (.jz imm) s = .next t ∧
      exec (.jz imm) { s with flags := f } = .next { t with flags := f }) ∧
  (∀ (imm : Word) (s : State) (f : Flags), f.c = s.flags.c →
    ∃ t, exec (.jc imm) s = .next t ∧
      exec (.jc imm) { s with flags := f } = .next { t with flags := f }) ∧
  ∀ (i : Instr) (s t : State) (f : Flags), (∀ imm, i ≠ .jz imm) → (∀ imm, i ≠ .jc imm) →
    exec i s = .next t → ∃ g, exec i { s with flags := f } = .next { t with flags := g }

/-! Registers, memory, framebuffer -/

/-- Sixteen independent registers, none hardwired: a write of any one is read back, and every other reads as
before. -/
def Obligations.RegistersAreIndependent : Prop :=
  ∀ (s : State) (i j : Reg) (v : Word),
    (s.writeReg i v).readReg j = if j = i then v else s.readReg j

/-- A general register changes only if it is the destination of the instruction a step runs; a step whose fetch
or decoding raises changes none. -/
def Obligations.RegistersChangeOnlyAsDestinations : Prop :=
  ∀ (s t : State) (j : Reg), step s = .next t → t.readReg j ≠ s.readReg j →
    ∃ b0 b1 b2 b3 i, BytesAtPc s b0 b1 b2 b3 ∧ decode ⟨b0, b1, b2, b3⟩ = .ok i ∧
      destReg i = some j

/-- `MemWrite` then `MemRead`: the written address gives the value, every other reads as before, and the
canonical form is kept; the write fails exactly at the address with no byte, 0xFFFF (decision D1, log entry 1).
That there is a write at all is decision D28 (log entry 20). -/
def Obligations.MemoryReadAfterWrite : Prop :=
  ∀ (m : Memory) (a : Word) (v : Byte), m.wf = true →
    (a ≠ 0xFFFF → ∃ m', m.write a v = .ok m' ∧ m'.wf = true ∧
      ∀ b, m'.read b = if b = a then .ok v else m.read b) ∧
    (a = 0xFFFF → m.write a v = .error a ∧ m.read a = .error a)

/-- `FbWrite` then `FbRead`: an in-range write is read back at its own coordinates and nowhere else, and an
out-of-range one is dropped and never wraps to another row. The per-coordinate test is part of decision D16
(log entry 15). -/
def Obligations.FramebufferReadAfterWrite : Prop :=
  ∀ (fb : Framebuffer) (px py : Int) (v : Pixel), fb.wf = true →
    (inRange px py = true →
      ∀ qx qy, (fb.write px py v).read qx qy =
        if qx = px ∧ qy = py then some v else fb.read qx qy) ∧
    (inRange px py = false → fb.write px py v = fb ∧ fb.read px py = none)

/-- The fetch sees what was last written: four bytes stored at `pc` are the ones the next step decodes, at every
`pc` from which four bytes exist. It rests on decisions D1 and D28 (log entries 1, 20). -/
def Obligations.FetchSeesTheStoredWord : Prop :=
  ∀ (s : State) (w : Nat), CanStep s → s.mem.wf = true → uval s.pc < 0xFFFC →
    step (s.withFetchWord 32 w) =
      dispatchRaw (RawInstr.ofTableWord (BitVec.ofNat 32 w)) (s.withFetchWord 32 w)

/-! The whole machine -/

/-- Every step of the core keeps the invariant: memory and framebuffer in canonical form, and a latched record
justified and naming the instruction at which `pc` stands or which it has just passed. The record is decision
D12, the faulted `pc` D13 (log entries 7, 11, 18). -/
def Obligations.StepKeepsTheInvariant : Prop :=
  ∀ s t : State, Inv s → step s = .next t → Inv t

/-- The reset state meets the invariant, whatever the framebuffer holds then. -/
def Obligations.ResetMeetsTheInvariant : Prop := Inv State.reset

/-- What every cycle leaves in `pc`: as the table of instructions says, the advanced value if the bytes are no
instruction, and the fetch address if the fetch raises. No body reads `pc` as data: changing it changes only
`pc` and the address in a fault record; the body raises at one `pc` exactly if it raises at the other, with the
same cause and bytes. The faulted `pc`, the targets of JZ and JC and the completing VBLNK are decisions D13, D11
and D32, the record is D12 (log entries 7, 16, 17, 18). -/
def Obligations.PcAfterEveryCycle : Prop :=
  (∀ s t : State, step s = .next t →
    (∀ b0 b1 b2 b3 i, BytesAtPc s b0 b1 b2 b3 → decode ⟨b0, b1, b2, b3⟩ = .ok i →
      t.pc = pcAfter i s) ∧
    (∀ b0 b1 b2 b3 e, BytesAtPc s b0 b1 b2 b3 → decode ⟨b0, b1, b2, b3⟩ = .error e →
      t.pc = s.pc + 4) ∧
    ((¬∃ b0 b1 b2 b3, BytesAtPc s b0 b1 b2 b3) → t.pc = s.pc)) ∧
  ∀ (i : Instr) (s t : State) (p : Word), exec i s = .next t →
    ∃ t', exec i { s with pc := p } = .next t' ∧ t' = { t with pc := t'.pc, fault := t'.fault } ∧
      (t'.fault = none ↔ t.fault = none) ∧
      ∀ r r', t.fault = some r → t'.fault = some r' → r' = { r with addr := r'.addr }

/-- No step writes memory, `sp` or the host's stop, and only a step that runs CLS or DRW changes the framebuffer.
That a run never changes `sp` holds of the open value, whatever it is. -/
def Obligations.StoresAreOnlyToTheFramebuffer : Prop :=
  ∀ s t : State, step s = .next t →
    t.mem = s.mem ∧ t.sp = s.sp ∧ t.stopped = s.stopped ∧
    (t.fb ≠ s.fb → ∃ b0 b1 b2 b3 i, BytesAtPc s b0 b1 b2 b3 ∧ decode ⟨b0, b1, b2, b3⟩ = .ok i ∧
      (i = .cls ∨ ∃ x y imm, i = .drw x y imm))

/-- `sp`, `fg`, Overflow and Negative are never read: two states that differ at most in them take steps to
states that differ at most in them. That nothing reads `fg` is decision D34 (log entry 16). -/
def Obligations.UnreadStateNeverMatters : Prop :=
  ∀ s s' t : State, AgreeOnRead s s' → step s = .next t →
    ∃ t', step s' = .next t' ∧ AgreeOnRead t t'

/-- A JMP to its own address is a loop that changes no state: the step from there answers the same state again,
so the core keeps stepping, every state of the run is the first one, and the run is safe. That unused bits are
ignored is decision D9 (log entry 13). -/
def Obligations.JumpToItselfRestsForEver : Prop :=
  ∀ (s : State) (b1 : Byte), CanStep s → BytesAtPc s 0x10 b1 (lowByte s.pc) (highByte s.pc) →
    step s = .next s ∧ SafeRun s ∧ ∀ t, Reaches s t → t = s

/-- Every state that a run of the core reaches from a launch meets the invariant and holds the launched memory
and `sp`. The launch rests on decisions D3 to D7 and D31 (log entries 3, 4, 6, 19), what the invariant says of a
faulted state on D12 and D13 (log entries 7, 18). -/
def Obligations.EveryRunFromALaunchMeetsTheInvariant : Prop :=
  ∀ (image : List Byte) (start : Word) (s t : State), launch image start = .next s → Reaches s t →
    Inv t ∧ t.mem = s.mem ∧ t.sp = s.sp

/-! The agents beside the core -/

/-- The vertical-blank latch: the set-latch step sets it, set or not; it goes low to high in no other event, and
high to low only in a core cycle whose instruction is VBLNK; no other body reads or writes it. The events are
decision D24 (log entry 12). -/
def Obligations.WhoSetsClearsAndReadsTheLatch : Prop :=
  (∀ s : State, s.setLatch = { s with vblank := true }) ∧
  (∀ (e : Event) (y y' : System), System.next e y = some y' →
    (y.machine.vblank = false → y'.machine.vblank = true → e = .setLatch) ∧
    (y.machine.vblank = true → y'.machine.vblank = false → e = .cycle ∧
      ∃ b1 b2 b3, BytesAtPc y.machine 0x02 b1 b2 b3)) ∧
  ∀ (i : Instr) (s t : State) (b : Bool), i ≠ .vblnk → exec i s = .next t →
    t.vblank = s.vblank ∧ exec i { s with vblank := b } = .next { t with vblank := b }

/-- A present shows the framebuffer as it stands and changes no state of the machine, a set-latch changes the
latch alone, and within a tick the present comes first. The two atomic steps are decision D24
(log entry 12). -/
def Obligations.DisplayStepsTouchOnlyTheLatch : Prop :=
  ∀ y y' : System,
    (System.next .present y = some y' →
      y.phase = .idle ∧ y' = { y with phase := .presented, shown := some y.machine.fb }) ∧
    (System.next .setLatch y = some y' →
      y.phase = .presented ∧
      y' = { y with machine := { y.machine with vblank := true }, phase := .idle })

/-- A waiting VBLNK ends with the next display tick: after any number of waiting cycles with the latch clear, a
present, a set-latch and one cycle leave `pc` past the VBLNK, the latch clear and everything else as it was. It
rests on decisions D24 and D32 (log entries 12, 16). That unused bits are ignored is decision D9 (log entry 13).
-/
def Obligations.VblnkPassesAfterTheNextTick : Prop :=
  ∀ (y : System) (b1 b2 b3 : Byte) (n : Nat), CanStep y.machine → y.phase = .idle →
    y.machine.vblank = false → BytesAtPc y.machine 0x02 b1 b2 b3 →
    System.run (List.replicate n .cycle ++ [.present, .setLatch, .cycle]) y =
      some { machine := { y.machine with pc := y.machine.pc + 4 }, phase := .idle,
             shown := some y.machine.fb }

/-- Every schedule of core cycles, display steps and a stop keeps the invariant, and leaves memory and `sp` as
they were: the program is constant for the whole run. Which schedules there are is decision D24 (log entry 12),
what the invariant says of a faulted state is D12 and D13 (log entries 7, 18). -/
def Obligations.EveryScheduleKeepsTheProgram : Prop :=
  ∀ (es : List Event) (y y' : System), Inv y.machine → System.run es y = some y' →
    Inv y'.machine ∧ y'.machine.mem = y.machine.mem ∧ y'.machine.sp = y.machine.sp

/-- Once a record is in the fault latch, no schedule of events clears or replaces it: of the machine only the
vertical-blank latch and the host's stop can still change. It rests on decisions D12 and D13
(log entries 7, 18). -/
def Obligations.FaultLatchIsFinal : Prop :=
  ∀ (es : List Event) (y y' : System), y.machine.fault ≠ none → System.run es y = some y' →
    y'.machine =
      { y.machine with vblank := y'.machine.vblank, stopped := y'.machine.stopped }

/-- After the host's stop no event of any agent happens, and the stop itself changes nothing else: the fault
latch stays as it was. The stop input is decision D25 (log entry 8). -/
def Obligations.StopFreezesTheSystem : Prop :=
  (∀ y y' : System, System.next .stop y = some y' →
    y' = { y with machine := { y.machine with stopped := true } }) ∧
  ∀ (e : Event) (y : System), y.machine.stopped = true → System.next e y = none

/-! Reset and load -/

/-- The load of a file: a 16-byte header with the declared size in bytes 6 to 9 and the start address in bytes
10 and 11, then `rest`. A file that ends before its header or its declared payload does is refused. Otherwise
every byte of memory is the payload's or 0, the payload at address 0 whatever the start address, and neither the
header nor what follows the payload is in it. That a longer payload than memory is refused is decision D31. That
the magic tag, the reserved byte, the version and the checksum are not looked at, and that bytes after the
payload are left out, is the model's choice (log entry 19). -/
def Obligations.LoadPlacesThePayloadAtZero : Prop :=
  (∀ file : List Byte, file.length < 16 → loadCartridge file = .refused .cartridgeTruncated) ∧
  ∀ (magic : List Byte) (reserved version z0 z1 z2 z3 lo hi : Byte) (check rest file : List Byte) (size : Nat),
    magic.length = 4 → check.length = 4 →
    size = z0.toNat + 256 * z1.toNat + 65536 * z2.toNat + 16777216 * z3.toNat →
    file = magic ++ [reserved, version, z0, z1, z2, z3, lo, hi] ++ check ++ rest →
    (rest.length < size → loadCartridge file = .refused .cartridgeTruncated) ∧
    (size ≤ rest.length → Config.memSize < size → loadCartridge file = .refused .payloadTooLong) ∧
    (size ≤ rest.length → size ≤ Config.memSize → ∃ t, loadCartridge file = .next t ∧
      t.pc = hi ++ lo ∧
      (∀ k, k < size → rest[k]? = some (t.mem.byteAt k)) ∧
      (∀ k, size ≤ k → t.mem.byteAt k = 0))

/-- A launch puts the image at address 0 over zeros and the start address in `pc`, gives every other piece of state
its reset value and meets the invariant; a payload longer than the memory is refused. The reset values are decisions
D3 to D7 and the precondition D31 (log entries 3, 4, 6, 19). -/
def Obligations.LaunchStateIsResetWithTheImage : Prop :=
  ∀ (image : List Byte) (start : Word),
    (image.length ≤ Config.memSize → ∃ t, launch image start = .next t ∧ Inv t ∧ CanStep t ∧
      (∀ k, k < image.length → image[k]? = some (t.mem.byteAt k)) ∧
      (∀ k, image.length ≤ k → t.mem.byteAt k = 0) ∧
      t = { State.reset with mem := t.mem, pc := start }) ∧
    (Config.memSize < image.length → launch image start = .refused .payloadTooLong)

/-- Reset: every byte of memory is 0, every register, every flag, the display-control registers and the latch are
0, no fault is latched, the machine is not stopped, and each cell holds what the open `FB_RESET` says. The zeros of
the registers, flags and display registers are decisions D3 to D5 (log entry 6). -/
def Obligations.ResetValues : Prop :=
  (∀ a : Word, a ≠ 0xFFFF → State.reset.mem.read a = .ok 0) ∧
  (∀ j, State.reset.readReg j = 0) ∧
  State.reset.flags = { c := false, z := false, o := false, n := false } ∧
  State.reset.bg = 0 ∧ State.reset.fg = 0 ∧ State.reset.spritew = 0 ∧ State.reset.spriteh = 0 ∧
  State.reset.vblank = false ∧ State.reset.fault = none ∧ State.reset.stopped = false ∧
  ∀ px py, inRange px py = true →
    State.reset.fb.read px py = some (Config.fbReset (cellIndex px py))
end

