-- ==== Sys2Proof/Laws/Decode.lean ====
section
/-! SUPPORT. The laws of the bit fields and of the decoder. -/

namespace Sys2Proof

@[simp] theorem lowNibble_operandByte (x y : Nibble) : lowNibble (operandByte x y) = x := by
  revert x y; decide

@[simp] theorem highNibble_operandByte (x y : Nibble) : highNibble (operandByte x y) = y := by
  revert x y; decide

@[simp] theorem operandByte_nibbles (b : Byte) : operandByte (lowNibble b) (highNibble b) = b := by
  revert b; decide

@[simp] theorem highByte_append_lowByte (v : Word) : highByte v ++ lowByte v = v := by
  apply BitVec.eq_of_getLsbD_eq
  intro i hi
  simp only [highByte, lowByte, BitVec.getLsbD_append, BitVec.getLsbD_extractLsb']
  split <;> rename_i h
  · simp [h]
  · rw [show 8 + (i - 8) = i by omega]; simp; omega

theorem getLsbD_append_bytes (hh ll : Byte) (i : Nat) :
    BitVec.getLsbD (w := 16) (hh ++ ll) i = if i < 8 then ll.getLsbD i else hh.getLsbD (i - 8) :=
  BitVec.getLsbD_append

@[simp] theorem lowByte_append (hh ll : Byte) : lowByte (hh ++ ll) = ll := by
  apply BitVec.eq_of_getLsbD_eq
  intro i hi
  simp only [lowByte, BitVec.getLsbD_extractLsb']
  rw [getLsbD_append_bytes, if_pos (by omega)]
  simp [hi]

@[simp] theorem highByte_append (hh ll : Byte) : highByte (hh ++ ll) = hh := by
  apply BitVec.eq_of_getLsbD_eq
  intro i hi
  simp only [highByte, BitVec.getLsbD_extractLsb']
  rw [getLsbD_append_bytes, if_neg (by omega), show 8 + i - 8 = i by omega]
  simp [hi]

theorem getLsbD_toTableWord (r : RawInstr) (i : Nat) :
    r.toTableWord.getLsbD i =
      if i < 8 then r.b3.getLsbD i else if i - 8 < 8 then r.b2.getLsbD (i - 8)
      else if i - 8 - 8 < 8 then r.b1.getLsbD (i - 8 - 8) else r.b0.getLsbD (i - 8 - 8 - 8) := by
  have h1 : r.toTableWord.getLsbD i =
      if i < 8 then r.b3.getLsbD i else (r.b0 ++ r.b1 ++ r.b2).getLsbD (i - 8) := BitVec.getLsbD_append
  rw [h1, BitVec.getLsbD_append, BitVec.getLsbD_append]

@[simp] theorem RawInstr.ofTableWord_toTableWord (r : RawInstr) :
    RawInstr.ofTableWord r.toTableWord = r := by
  obtain ⟨b0, b1, b2, b3⟩ := r
  simp only [RawInstr.ofTableWord, RawInstr.mk.injEq]
  refine ⟨?_, ?_, ?_, ?_⟩ <;>
  · apply BitVec.eq_of_getLsbD_eq
    intro i hi
    simp only [BitVec.getLsbD_extractLsb', getLsbD_toTableWord, hi, decide_true, Bool.true_and]
    repeat' split
    all_goals first | omega | (congr 1; omega)

theorem RawInstr.ofTableWord_injective {w w' : BitVec 32}
    (h : RawInstr.ofTableWord w = RawInstr.ofTableWord w') : w = w' := by
  simp only [RawInstr.ofTableWord, RawInstr.mk.injEq] at h
  obtain ⟨h0, h1, h2, h3⟩ := h
  apply BitVec.eq_of_getLsbD_eq
  intro i hi
  have bit (a : Nat) (ha : a ≤ i) (ha' : i < a + 8) (e : w.extractLsb' a 8 = w'.extractLsb' a 8) :
      w.getLsbD i = w'.getLsbD i := by
    have := congrArg (fun b : BitVec 8 => b.getLsbD (i - a)) e
    simpa [BitVec.getLsbD_extractLsb', show i - a < 8 by omega, show a + (i - a) = i by omega] using this
  rcases (by omega : i < 8 ∨ (8 ≤ i ∧ i < 16) ∨ (16 ≤ i ∧ i < 24) ∨ 24 ≤ i) with h | h | h | h
  · exact bit 0 (by omega) (by omega) h3
  · exact bit 8 h.1 (by omega) h2
  · exact bit 16 h.1 (by omega) h1
  · exact bit 24 h (by omega) h0

/-- A masked word is compared byte by byte. -/
theorem RawInstr.masked_eq_iff (r : RawInstr) (mask w : BitVec 32) :
    r.toTableWord &&& mask = w ↔
      r.b0 &&& (RawInstr.ofTableWord mask).b0 = (RawInstr.ofTableWord w).b0 ∧
        r.b1 &&& (RawInstr.ofTableWord mask).b1 = (RawInstr.ofTableWord w).b1 ∧
        r.b2 &&& (RawInstr.ofTableWord mask).b2 = (RawInstr.ofTableWord w).b2 ∧
        r.b3 &&& (RawInstr.ofTableWord mask).b3 = (RawInstr.ofTableWord w).b3 := by
  have bytes : RawInstr.ofTableWord (r.toTableWord &&& mask) =
      ⟨r.b0 &&& (RawInstr.ofTableWord mask).b0, r.b1 &&& (RawInstr.ofTableWord mask).b1,
        r.b2 &&& (RawInstr.ofTableWord mask).b2, r.b3 &&& (RawInstr.ofTableWord mask).b3⟩ := by
    have h := RawInstr.ofTableWord_toTableWord r
    simp only [RawInstr.ofTableWord, BitVec.extractLsb'_and] at h ⊢
    rw [← h]
    simp only [h]
  constructor
  · rintro rfl
    rw [bytes]
    exact ⟨rfl, rfl, rfl, rfl⟩
  · rintro ⟨h0, h1, h2, h3⟩
    apply RawInstr.ofTableWord_injective
    rw [bytes, h0, h1, h2, h3]

/-- The selector of opcode 0x12, examined first (rule R181). -/
theorem decodeJcc_cases (r : RawInstr) :
    (r.x = 0x0 ∧ decodeJcc r = .ok (.jz r.imm)) ∨ (r.x = 0x9 ∧ decodeJcc r = .ok (.jc r.imm)) ∨
      (r.x ≠ 0x0 ∧ r.x ≠ 0x9 ∧ decodeJcc r = .error (.unrecognizedCondition r.x)) := by
  unfold decodeJcc
  split
  · exact .inl ⟨‹_›, rfl⟩
  · split
    · exact .inr (.inl ⟨‹_›, rfl⟩)
    · exact .inr (.inr ⟨‹_›, ‹_›, rfl⟩)

/-- The rows of the decoder, said once: to show a fact of what four bytes decode to, show it of each row and of
the rejection of a byte outside the table. -/
theorem decode_rows {P : Except DecodeError Instr → Prop} (r : RawInstr)
    (cls : r.b0 = 0x01 → P (.ok .cls))
    (vblnk : r.b0 = 0x02 → P (.ok .vblnk))
    (bgc : r.b0 = 0x03 → P (.ok (.bgc r.z)))
    (spr : r.b0 = 0x04 → P (.ok (.spr r.b2 r.b3)))
    (drw : r.b0 = 0x05 → P (.ok (.drw r.x r.y r.imm)))
    (jmp : r.b0 = 0x10 → P (.ok (.jmp r.imm)))
    (jcc : r.b0 = 0x12 → P (decodeJcc r))
    (jme : r.b0 = 0x13 → P (.ok (.jme r.x r.y r.imm)))
    (ldi : r.b0 = 0x20 → P (.ok (.ldi r.x r.imm)))
    (mov : r.b0 = 0x24 → P (.ok (.mov r.x r.y)))
    (add : r.b0 = 0x41 → P (.ok (.add r.x r.y)))
    (subi : r.b0 = 0x50 → P (.ok (.subi r.x r.imm)))
    (sub : r.b0 = 0x51 → P (.ok (.sub r.x r.y)))
    (sub3 : r.b0 = 0x52 → P (.ok (.sub3 r.x r.y r.z)))
    (illegal : r.b0 ∉ legalOpcodes → P (.error (.unrecognizedOpcode r.b0))) : P (decode r) := by
  unfold decode
  split <;> rename_i h
  · exact cls h
  · exact vblnk h
  · exact bgc h
  · exact spr h
  · exact drw h
  · exact jmp h
  · exact jcc h
  · exact jme h
  · exact ldi h
  · exact mov h
  · exact add h
  · exact subi h
  · exact sub h
  · exact sub3 h
  · apply illegal
    simp only [legalOpcodes, List.mem_cons, List.not_mem_nil, or_false, not_or]
    and_intros <;> assumption

end Sys2Proof
end

