-- ==== Sys2Proof/Laws/Sparse.lean ====
section
/-! SUPPORT. The laws of the sparse storages: read after write, and that every operation keeps the canonical
form. -/

namespace Sys2Proof.Machine

section Reads

variable {α : Type} {d : α}

@[simp] theorem Sparse.get_nil (k : Nat) : Sparse.get d [] k = d := rfl

theorem Sparse.get_cons (k' : Nat) (v : α) (rest : List (Nat × α)) (k : Nat) :
    Sparse.get d ((k', v) :: rest) k = if k = k' then v else Sparse.get d rest k := rfl

end Reads

variable {α : Type} [DecidableEq α] {d : α}

theorem Sparse.wfFrom_cons {bound lo k : Nat} {v : α} {rest : List (Nat × α)} :
    Sparse.wfFrom d bound lo ((k, v) :: rest) = true ↔
      lo ≤ k ∧ k < bound ∧ v ≠ d ∧ Sparse.wfFrom d bound (k + 1) rest = true := by
  simp [Sparse.wfFrom, and_assoc]

theorem Sparse.wfFrom_mono {bound lo lo' : Nat} {m : List (Nat × α)} (h : lo' ≤ lo)
    (hm : Sparse.wfFrom d bound lo m = true) : Sparse.wfFrom d bound lo' m = true := by
  cases m with
  | nil => rfl
  | cons p rest =>
    rw [Sparse.wfFrom_cons] at hm ⊢
    exact ⟨h.trans hm.1, hm.2⟩

theorem Sparse.get_below {bound lo k : Nat} {m : List (Nat × α)}
    (hm : Sparse.wfFrom d bound lo m = true) (hk : k < lo) : Sparse.get d m k = d := by
  induction m generalizing lo with
  | nil => rfl
  | cons p rest ih =>
    obtain ⟨h1, -, -, h4⟩ := Sparse.wfFrom_cons.mp hm
    rw [Sparse.get_cons, if_neg (by omega)]
    exact ih h4 (by omega)

/-- Read after write, for a storage in canonical form. -/
theorem Sparse.get_set {bound lo k j : Nat} {m : List (Nat × α)} {v : α}
    (hm : Sparse.wfFrom d bound lo m = true) :
    Sparse.get d (Sparse.set d m k v) j = if j = k then v else Sparse.get d m j := by
  induction m generalizing lo with
  | nil =>
    by_cases hv : v = d <;> simp [Sparse.set, Sparse.get, hv]
  | cons p rest ih =>
    obtain ⟨k', v'⟩ := p
    obtain ⟨-, -, -, h4⟩ := Sparse.wfFrom_cons.mp hm
    have below : ∀ i, i ≤ k' → Sparse.get d rest i = d := fun i hi =>
      Sparse.get_below h4 (by omega)
    have ih := ih h4
    by_cases hlt : k < k'
    · by_cases hv : v = d
      · simp only [Sparse.set, hlt, hv, if_true, Sparse.get_cons]
        by_cases hj : j = k
        · rw [if_pos hj, if_neg (by omega), below _ (by omega)]
        · rw [if_neg hj]
      · simp only [Sparse.set, hlt, hv, if_true, if_false, Sparse.get_cons]
    · by_cases heq : k = k'
      · subst heq
        by_cases hv : v = d <;>
          simp only [Sparse.set, hlt, hv, if_true, if_false, Sparse.get_cons]
        · split <;> rename_i h1
          · rw [below _ (by omega)]
          · rfl
        · split <;> rfl
      · simp only [Sparse.set, hlt, heq, if_false, Sparse.get_cons, ih]
        split <;> rename_i h1
        · rw [if_neg (by omega)]
        · rfl

/-- A write inside the bound keeps the canonical form. -/
theorem Sparse.wfFrom_set {bound lo k : Nat} {m : List (Nat × α)} {v : α} (hlo : lo ≤ k) (hk : k < bound)
    (hm : Sparse.wfFrom d bound lo m = true) : Sparse.wfFrom d bound lo (Sparse.set d m k v) = true := by
  induction m generalizing lo with
  | nil =>
    by_cases hv : v = d <;> simp [Sparse.set, Sparse.wfFrom, hv, hlo, hk]
  | cons p rest ih =>
    obtain ⟨k', v'⟩ := p
    obtain ⟨h1, h2, h3, h4⟩ := Sparse.wfFrom_cons.mp hm
    by_cases hlt : k < k'
    · by_cases hv : v = d <;> simp only [Sparse.set, hlt, hv, if_true, if_false]
      · exact hm
      · exact Sparse.wfFrom_cons.mpr ⟨hlo, hk, hv, Sparse.wfFrom_cons.mpr ⟨by omega, h2, h3, h4⟩⟩
    · by_cases heq : k = k'
      · subst heq
        by_cases hv : v = d <;> simp only [Sparse.set, hlt, hv, if_true, if_false]
        · exact Sparse.wfFrom_mono (by omega) h4
        · exact Sparse.wfFrom_cons.mpr ⟨h1, h2, hv, h4⟩
      · simp only [Sparse.set, hlt, heq, if_false]
        exact Sparse.wfFrom_cons.mpr ⟨h1, h2, h3, ih (by omega) h4⟩

/-- Two storages in canonical form that read the same are the same list. -/
theorem Sparse.ext_of_get {bound lo : Nat} {m m' : List (Nat × α)}
    (hm : Sparse.wfFrom d bound lo m = true) (hm' : Sparse.wfFrom d bound lo m' = true)
    (h : ∀ k, Sparse.get d m k = Sparse.get d m' k) : m = m' := by
  induction m generalizing lo m' with
  | nil =>
    cases m' with
    | nil => rfl
    | cons p' rest' =>
      obtain ⟨k', v'⟩ := p'
      have := h k'
      simp only [Sparse.get_nil, Sparse.get_cons, if_true] at this
      exact absurd this.symm (Sparse.wfFrom_cons.mp hm').2.2.1
  | cons p rest ih =>
    obtain ⟨k, v⟩ := p
    obtain ⟨h1, h2, h3, h4⟩ := Sparse.wfFrom_cons.mp hm
    cases m' with
    | nil =>
      have := h k
      simp only [Sparse.get_nil, Sparse.get_cons, if_true] at this
      exact absurd this h3
    | cons p' rest' =>
      obtain ⟨k', v'⟩ := p'
      obtain ⟨h1', h2', h3', h4'⟩ := Sparse.wfFrom_cons.mp hm'
      have hkk : k = k' := by
        rcases Nat.lt_trichotomy k k' with hlt | heq | hgt
        · have := h k
          rw [Sparse.get_cons, if_pos rfl, Sparse.get_cons, if_neg (by omega),
            Sparse.get_below h4' (by omega)] at this
          exact absurd this h3
        · exact heq
        · have := h k'
          rw [Sparse.get_cons, if_neg (by omega), Sparse.get_below h4 (by omega), Sparse.get_cons,
            if_pos rfl] at this
          exact absurd this.symm h3'
      subst hkk
      have hv : v = v' := by simpa [Sparse.get_cons] using h k
      subst hv
      congr 1
      refine ih h4 h4' fun j => ?_
      by_cases hj : j = k
      · subst hj
        rw [Sparse.get_below h4 (by omega), Sparse.get_below h4' (by omega)]
      · simpa [Sparse.get_cons, hj] using h j

theorem Sparse.ofFn_aux (f : Nat → α) (bound start n : Nat) (hb : start + n ≤ bound) :
    Sparse.wfFrom d bound start
        ((List.range' start n).filterMap fun k => if f k = d then none else some (k, f k)) = true ∧
      ∀ k, Sparse.get d ((List.range' start n).filterMap fun k => if f k = d then none else some (k, f k)) k =
        if start ≤ k ∧ k < start + n then f k else d := by
  induction n generalizing start with
  | zero => exact ⟨rfl, fun k => by rw [if_neg (by omega)]; rfl⟩
  | succ n ih =>
    obtain ⟨hw, hg⟩ := ih (start + 1) (by omega)
    rw [List.range'_succ]
    by_cases hd : f start = d
    · rw [List.filterMap_cons_none (by simp [hd])]
      refine ⟨Sparse.wfFrom_mono (by omega) hw, fun k => ?_⟩
      rw [hg k]
      rcases Nat.lt_trichotomy k start with h | h | h
      · rw [if_neg (by omega), if_neg (by omega)]
      · subst h; rw [if_neg (by omega), if_pos (by omega), hd]
      · by_cases h' : k < start + (n + 1)
        · rw [if_pos (by omega), if_pos (by omega)]
        · rw [if_neg (by omega), if_neg (by omega)]
    · rw [List.filterMap_cons_some (b := (start, f start)) (by simp [hd])]
      refine ⟨Sparse.wfFrom_cons.mpr ⟨le_rfl, by omega, hd, hw⟩, fun k => ?_⟩
      rw [Sparse.get_cons, hg k]
      rcases Nat.lt_trichotomy k start with h | h | h
      · rw [if_neg (by omega), if_neg (by omega), if_neg (by omega)]
      · subst h; rw [if_pos rfl, if_pos (by omega)]
      · by_cases h' : k < start + (n + 1)
        · rw [if_neg (by omega), if_pos (by omega), if_pos (by omega)]
        · rw [if_neg (by omega), if_neg (by omega), if_neg (by omega)]

theorem Sparse.get_ofFn (n : Nat) (f : Nat → α) (k : Nat) :
    Sparse.get d (Sparse.ofFn d n f) k = if k < n then f k else d := by
  have := (Sparse.ofFn_aux (d := d) f n 0 n (by omega)).2 k
  simpa [Sparse.ofFn, List.range_eq_range'] using this

theorem Sparse.wfFrom_ofFn (n : Nat) (f : Nat → α) :
    Sparse.wfFrom d n 0 (Sparse.ofFn d n f) = true := by
  have := (Sparse.ofFn_aux (d := d) f n 0 n (by omega)).1
  simpa [Sparse.ofFn, List.range_eq_range'] using this

theorem Sparse.wfFrom_ofList (bound lo : Nat) (l : List α) (h : lo + l.length ≤ bound) :
    Sparse.wfFrom d bound lo (Sparse.ofList d lo l) = true := by
  induction l generalizing lo with
  | nil => rfl
  | cons v rest ih =>
    simp only [List.length_cons] at h
    have ih := ih (lo + 1) (by omega)
    by_cases hv : v = d
    · simp only [Sparse.ofList, hv, if_true]
      exact Sparse.wfFrom_mono (by omega) ih
    · simp only [Sparse.ofList, hv, if_false]
      exact Sparse.wfFrom_cons.mpr ⟨le_rfl, by omega, hv, ih⟩

theorem Sparse.get_ofList (lo : Nat) (l : List α) (k : Nat) :
    Sparse.get d (Sparse.ofList d lo l) (lo + k) = l.getD k d := by
  induction l generalizing lo k with
  | nil => simp [Sparse.ofList]
  | cons v rest ih =>
    have below : Sparse.get d (Sparse.ofList d (lo + 1) rest) lo = d :=
      Sparse.get_below (Sparse.wfFrom_ofList _ (lo + 1) rest le_rfl) (by omega)
    cases k with
    | zero =>
      by_cases hv : v = d
      · simp [Sparse.ofList, hv, below]
      · simp [Sparse.ofList, hv, Sparse.get_cons]
    | succ k =>
      have ih := ih (lo + 1) k
      rw [show lo + 1 + k = lo + (k + 1) by omega] at ih
      by_cases hv : v = d
      · simp [Sparse.ofList, hv, ih]
      · simp only [Sparse.ofList, hv, if_false, Sparse.get_cons]
        rw [if_neg (by omega), ih]
        simp

end Sys2Proof.Machine
end

