-- ==== Sys2Proof/Laws/Framebuffer.lean ====
section
/-! SUPPORT. The laws of the framebuffer operations and of the rasterizer: read after write, clipping, and
the canonical form. -/

namespace Sys2Proof.Machine

theorem inRange_iff {px py : Int} :
    inRange px py = true ↔ 0 ≤ px ∧ px < 320 ∧ 0 ≤ py ∧ py < 240 := by
  simp only [inRange, Bool.and_eq_true, decide_eq_true_eq, and_assoc]
  simp only [Config.width, Config.height, Nat.cast_ofNat]

theorem cellIndex_lt {px py : Int} (h : inRange px py = true) : cellIndex px py < Config.cells := by
  obtain ⟨h1, h2, h3, h4⟩ := inRange_iff.mp h
  simp only [cellIndex, Config.cells, Config.width, Config.height]
  omega

/-- Different in-range pixels have different cells (20_memory.md rule R60). -/
theorem cellIndex_inj {px py qx qy : Int} (hp : inRange px py = true) (hq : inRange qx qy = true) :
    cellIndex px py = cellIndex qx qy ↔ px = qx ∧ py = qy := by
  obtain ⟨h1, h2, h3, h4⟩ := inRange_iff.mp hp
  obtain ⟨k1, k2, k3, k4⟩ := inRange_iff.mp hq
  simp only [cellIndex, Config.width]
  omega

/-- Every cell number is that of its column and row. -/
theorem cellIndex_of_coords {k : Nat} (h : k < Config.cells) :
    inRange (k % 320 : Nat) (k / 320 : Nat) = true ∧ cellIndex (k % 320 : Nat) (k / 320 : Nat) = k := by
  simp only [Config.cells, Config.width, Config.height] at h
  refine ⟨inRange_iff.mpr ?_, ?_⟩
  · omega
  · simp only [cellIndex, Config.width, Int.toNat_natCast]; omega

theorem Framebuffer.read_of_inRange {fb : Framebuffer} {px py : Int} (h : inRange px py = true) :
    fb.read px py = some (fb.cellAt (cellIndex px py)) := if_pos h

theorem Framebuffer.read_of_not_inRange {fb : Framebuffer} {px py : Int} (h : inRange px py = false) :
    fb.read px py = none := by simp [Framebuffer.read, h]

theorem Framebuffer.write_of_not_inRange {fb : Framebuffer} {px py : Int} {v : Pixel}
    (h : inRange px py = false) : fb.write px py v = fb := by simp [Framebuffer.write, h]

/-- Read after write; an out-of-range write is dropped. -/
theorem Framebuffer.read_write {fb : Framebuffer} (hfb : fb.wf = true) (px py qx qy : Int) (v : Pixel) :
    (fb.write px py v).read qx qy =
      if inRange px py = true ∧ qx = px ∧ qy = py then some v else fb.read qx qy := by
  by_cases hp : inRange px py = true
  · by_cases hq : inRange qx qy = true
    · rw [Framebuffer.read_of_inRange hq, Framebuffer.read_of_inRange hq]
      simp only [Framebuffer.write, hp, if_true, Framebuffer.cellAt]
      rw [Sparse.get_set hfb]
      by_cases h : qx = px ∧ qy = py
      · rw [if_pos ((cellIndex_inj hq hp).mpr h), if_pos ⟨trivial, h⟩]
      · rw [if_neg (fun e => h ((cellIndex_inj hq hp).mp e)), if_neg (fun e => h e.2)]
    · rw [if_neg]
      · rw [Framebuffer.read_of_not_inRange (by simpa using hq),
          Framebuffer.read_of_not_inRange (by simpa using hq)]
      · rintro ⟨-, rfl, rfl⟩; exact hq hp
  · rw [Framebuffer.write_of_not_inRange (by simpa using hp), if_neg (fun e => hp e.1)]

/-- A write keeps the canonical form. -/
theorem Framebuffer.wf_write {fb : Framebuffer} (hfb : fb.wf = true) (px py : Int) (v : Pixel) :
    (fb.write px py v).wf = true := by
  by_cases hp : inRange px py = true
  · simp only [Framebuffer.write, hp, if_true]
    exact Sparse.wfFrom_set (Nat.zero_le _) (cellIndex_lt hp) hfb
  · rw [Framebuffer.write_of_not_inRange (by simpa using hp)]; exact hfb

theorem Framebuffer.wf_nil : Framebuffer.wf [] = true := rfl

theorem Framebuffer.wf_ofFn (f : Nat → Pixel) : (Framebuffer.ofFn f).wf = true := by
  unfold Framebuffer.ofFn Framebuffer.wf
  generalize Config.cells = n
  exact Sparse.wfFrom_ofFn n f

theorem Framebuffer.cellAt_ofFn (f : Nat → Pixel) {k : Nat} (h : k < Config.cells) :
    (Framebuffer.ofFn f).cellAt k = f k := by
  unfold Framebuffer.ofFn Framebuffer.cellAt
  generalize Config.cells = n at h
  rw [Sparse.get_ofFn, if_pos h]

theorem Framebuffer.wf_filled (v : Pixel) : (Framebuffer.filled v).wf = true := by
  unfold Framebuffer.filled
  split
  · rfl
  · exact Framebuffer.wf_ofFn _

/-- Every cell of a filled framebuffer. -/
theorem Framebuffer.read_filled {px py : Int} (h : inRange px py = true) (v : Pixel) :
    (Framebuffer.filled v).read px py = some v := by
  rw [Framebuffer.read_of_inRange h]
  unfold Framebuffer.filled
  split <;> rename_i hv
  · rw [hv]; rfl
  · rw [Framebuffer.cellAt_ofFn _ (cellIndex_lt h)]

/-- Two framebuffers in canonical form that show the same are the same list. -/
theorem Framebuffer.ext_of_read {fb fb' : Framebuffer} (h : fb.wf = true) (h' : fb'.wf = true)
    (e : ∀ px py, fb.read px py = fb'.read px py) : fb = fb' := by
  refine Sparse.ext_of_get h h' fun k => ?_
  by_cases hk : k < Config.cells
  · obtain ⟨hr, hc⟩ := cellIndex_of_coords hk
    have := e (k % 320 : Nat) (k / 320 : Nat)
    rw [Framebuffer.read_of_inRange hr, Framebuffer.read_of_inRange hr, hc] at this
    exact Option.some.inj this
  · have above : ∀ (lo : Nat) (m : Framebuffer), Sparse.wfFrom Framebuffer.unlisted Config.cells lo m = true →
        Sparse.get Framebuffer.unlisted m k = Framebuffer.unlisted := by
      intro lo m hm
      induction m generalizing lo with
      | nil => rfl
      | cons p rest ih =>
        obtain ⟨-, h2, -, h4⟩ := Sparse.wfFrom_cons.mp hm
        rw [Sparse.get_cons, if_neg (by omega)]
        exact ih _ h4
    rw [above 0 fb h, above 0 fb' h']

/-- What `plot` does to the pair, said once: nothing, or one hit test and one write. -/
theorem plot_cases (c : Pixel) (acc : Framebuffer × Bool) (p : SpritePixel) :
    (plot c acc p = acc ∧ (p.idx = 0 ∨ inRange p.px p.py = false)) ∨
      (p.idx ≠ 0 ∧ inRange p.px p.py = true ∧
        plot c acc p = (acc.1.write p.px p.py (Config.palette p.idx),
          acc.2 || decide (acc.1.read p.px p.py ≠ some c))) := by
  by_cases hz : p.idx = 0
  · exact .inl ⟨by simp [plot, hz], .inl hz⟩
  · by_cases hr : inRange p.px p.py = true
    · refine .inr ⟨hz, hr, ?_⟩
      rw [plot, if_neg hz, Framebuffer.read_of_inRange hr]
      simp
    · refine .inl ⟨?_, .inr (by simpa using hr)⟩
      rw [plot, if_neg hz, Framebuffer.read_of_not_inRange (by simpa using hr)]

/-- Plotting keeps the canonical form. -/
theorem plots_wf (c : Pixel) (l : List SpritePixel) (acc : Framebuffer × Bool) (h : acc.1.wf = true) :
    (l.foldl (plot c) acc).1.wf = true := by
  induction l generalizing acc with
  | nil => exact h
  | cons p rest ih =>
    refine ih _ ?_
    rcases plot_cases c acc p with ⟨e, -⟩ | ⟨-, -, e⟩
    · rw [e]; exact h
    · rw [e]; exact Framebuffer.wf_write h _ _ _

theorem rasterize_wf (data : List Byte) (w h : Nat) (X Y : Int) (bg : Nibble) {fb : Framebuffer}
    (hfb : fb.wf = true) : (rasterize data w h X Y bg fb).1.wf = true :=
  plots_wf _ _ (fb, false) hfb

end Sys2Proof.Machine
end

