-- ==== Sys2Proof/Laws/Draw.lean ====
section
/-! SUPPORT. The rasterizer, said once: a sprite's pixels lie at different positions, so each plots alone. -/

namespace Sys2Proof.Machine

/-- The two pixels lie at different positions. -/
def SpritePixel.Apart (p q : SpritePixel) : Prop := ¬(p.px = q.px ∧ p.py = q.py)

theorem SpritePixel.Apart.symm {p q : SpritePixel} (h : p.Apart q) : q.Apart p :=
  fun e => h ⟨e.1.symm, e.2.symm⟩

/-- Where no visible in-range pixel lands, plotting leaves the cell as it was. -/
theorem plots_miss (c : Pixel) (l : List SpritePixel) (acc : Framebuffer × Bool) (h : acc.1.wf = true)
    (px py : Int) (miss : ∀ p ∈ l, p.idx ≠ 0 → ¬(p.px = px ∧ p.py = py)) :
    (l.foldl (plot c) acc).1.read px py = acc.1.read px py := by
  induction l generalizing acc with
  | nil => rfl
  | cons p rest ih =>
    have ih := fun acc h => ih acc h fun q hq => miss q (List.mem_cons_of_mem _ hq)
    rw [List.foldl_cons]
    rcases plot_cases c acc p with ⟨e, -⟩ | ⟨hz, hr, e⟩ <;> rw [e]
    · exact ih acc h
    · rw [ih _ (Framebuffer.wf_write h _ _ _), Framebuffer.read_write h, if_neg]
      rintro ⟨-, rfl, rfl⟩
      exact miss p List.mem_cons_self hz ⟨rfl, rfl⟩

/-- Where a visible in-range pixel lands, its cell takes its colour. -/
theorem plots_paint (c : Pixel) (l : List SpritePixel) (acc : Framebuffer × Bool) (h : acc.1.wf = true)
    (apart : l.Pairwise SpritePixel.Apart) {p : SpritePixel} (hp : p ∈ l) (hz : p.idx ≠ 0)
    (hr : inRange p.px p.py = true) :
    (l.foldl (plot c) acc).1.read p.px p.py = some (Config.palette p.idx) := by
  induction l generalizing acc with
  | nil => cases hp
  | cons q rest ih =>
    obtain ⟨first, others⟩ := List.pairwise_cons.mp apart
    rw [List.foldl_cons]
    rcases List.mem_cons.mp hp with rfl | hp'
    · rcases plot_cases c acc p with ⟨-, h0 | h0⟩ | ⟨-, -, e⟩
      · exact absurd h0 hz
      · rw [hr] at h0; cases h0
      · rw [e, plots_miss _ _ _ (Framebuffer.wf_write h _ _ _) _ _ fun q hq _ => (first q hq).symm,
          Framebuffer.read_write h, if_pos ⟨hr, rfl, rfl⟩]
    · refine ih _ ?_ others hp'
      rcases plot_cases c acc q with ⟨e, -⟩ | ⟨-, -, e⟩ <;> rw [e]
      · exact h
      · exact Framebuffer.wf_write h _ _ _

/-- The hit is reported exactly if it was before, or some visible in-range pixel lands on a cell that differed
from the background colour before the plotting. -/
theorem plots_hit (c : Pixel) (l : List SpritePixel) (acc : Framebuffer × Bool) (h : acc.1.wf = true)
    (apart : l.Pairwise SpritePixel.Apart) :
    (l.foldl (plot c) acc).2 = true ↔ acc.2 = true ∨ ∃ p ∈ l, p.idx ≠ 0 ∧ inRange p.px p.py = true ∧
      acc.1.read p.px p.py ≠ some c := by
  induction l generalizing acc with
  | nil => simp
  | cons q rest ih =>
    obtain ⟨first, others⟩ := List.pairwise_cons.mp apart
    rw [List.foldl_cons]
    rcases plot_cases c acc q with ⟨e, h0⟩ | ⟨hz, hr, e⟩ <;> rw [e]
    · have skip : ¬(q.idx ≠ 0 ∧ inRange q.px q.py = true ∧ acc.1.read q.px q.py ≠ some c) := by
        rintro ⟨h1, h2, -⟩
        rcases h0 with h0 | h0
        · exact h1 h0
        · rw [h2] at h0; cases h0
      rw [ih acc h others, List.exists_mem_cons_iff, or_iff_right skip]
    · have same : ∀ p ∈ rest,
          (acc.1.write q.px q.py (Config.palette q.idx)).read p.px p.py = acc.1.read p.px p.py := by
        intro p hp
        rw [Framebuffer.read_write h, if_neg]
        rintro ⟨-, h1, h2⟩
        exact first p hp ⟨h1.symm, h2.symm⟩
      rw [ih _ (Framebuffer.wf_write h _ _ _) others, List.exists_mem_cons_iff]
      simp only [Bool.or_eq_true, decide_eq_true_eq, hz, hr, ne_eq, not_false_eq_true, true_and, or_assoc]
      refine or_congr_right (or_congr_right (exists_congr fun p => and_congr_right fun hp => ?_))
      rw [same p hp]

/-- The pixels of a sprite (rules R153, R155). -/
theorem mem_spritePixels {w h : Nat} {X Y : Int} {data : List Byte} {p : SpritePixel} :
    p ∈ spritePixels w h X Y data ↔
      ∃ r < h, ∃ i < w, p ∈ bytePixels X Y r i (data.getD (r * w + i) 0) := by
  simp [spritePixels]

theorem mem_bytePixels {X Y : Int} {r i : Nat} {b : Byte} {p : SpritePixel} :
    p ∈ bytePixels X Y r i b ↔
      p = { px := X + 2 * i, py := Y + r, idx := highNibble b } ∨
        p = { px := X + 2 * i + 1, py := Y + r, idx := lowNibble b } := by
  simp [bytePixels]

/-- The pixels of a sprite lie at different positions (rule R162). -/
theorem spritePixels_apart (w h : Nat) (X Y : Int) (data : List Byte) :
    (spritePixels w h X Y data).Pairwise SpritePixel.Apart := by
  have columns {r i j : Nat} (hij : i < j) (b b' : Byte) :
      ∀ p ∈ bytePixels X Y r i b, ∀ q ∈ bytePixels X Y r j b', p.Apart q := by
    intro p hp q hq
    rcases mem_bytePixels.mp hp with rfl | rfl <;> rcases mem_bytePixels.mp hq with rfl | rfl <;>
      simp only [SpritePixel.Apart] <;> omega
  have rows {r r' i j : Nat} (hr : r < r') (b b' : Byte) :
      ∀ p ∈ bytePixels X Y r i b, ∀ q ∈ bytePixels X Y r' j b', p.Apart q := by
    intro p hp q hq
    rcases mem_bytePixels.mp hp with rfl | rfl <;> rcases mem_bytePixels.mp hq with rfl | rfl <;>
      simp only [SpritePixel.Apart] <;> omega
  refine List.pairwise_flatMap.mpr ⟨fun r _ => List.pairwise_flatMap.mpr ⟨fun i _ => ?_, ?_⟩, ?_⟩
  · simp [bytePixels, SpritePixel.Apart]
  · exact List.pairwise_lt_range.imp fun hij => columns hij _ _
  · refine List.pairwise_lt_range.imp fun hr p hp q hq => ?_
    obtain ⟨i, -, hp⟩ := List.mem_flatMap.mp hp
    obtain ⟨j, -, hq⟩ := List.mem_flatMap.mp hq
    exact rows hr _ _ p hp q hq

end Sys2Proof.Machine
end

