-- ==== Sys2Proof/Laws/Flags.lean ====
section
/-! SUPPORT. What the readings of a 16-bit value and the flag-update logic give, said once. -/

namespace Sys2Proof.Machine

theorem sval_bounds (v : Word) : -32768 ≤ sval v ∧ sval v ≤ 32767 := by
  have lower := BitVec.le_toInt (x := v)
  have upper := BitVec.toInt_lt (x := v)
  simp only [sval]
  omega

theorem sval_inj {v w : Word} : sval v = sval w ↔ v = w := BitVec.toInt_inj

/-- The signed reading of a wrapped number differs from it by a multiple of 65,536 (00_scope.md rule R9). -/
theorem sval_wrap16 (n : Int) : ∃ k : Int, sval (wrap16 n) = n + 65536 * k := by
  refine ⟨-((n + 32768) / 65536), ?_⟩
  rw [sval, wrap16, BitVec.toInt_ofInt, Int.bmod_def]
  simp only [Nat.reducePow, Nat.cast_ofNat]
  omega

/-- The top bit is the sign of the signed reading. -/
theorem msb_iff_sval_neg (v : Word) : v.msb = true ↔ sval v < 0 := by
  rw [BitVec.msb_eq_toInt, decide_eq_true_eq, sval]

@[simp] theorem addflags_result (p q : Word) : (addflags p q).1 = wrap16 (sval p + sval q) := rfl
@[simp] theorem addflags_c (p q : Word) : (addflags p q).2.c = true := rfl

theorem addflags_z (p q : Word) : (addflags p q).2.z = true ↔ (addflags p q).1 = 0 :=
  decide_eq_true_iff

theorem addflags_o (p q : Word) :
    (addflags p q).2.o = true ↔ p.msb = q.msb ∧ (addflags p q).1.msb ≠ p.msb := by
  rw [← decide_eq_true_iff (p := p.msb = q.msb), ← decide_eq_true_iff (p := _ ≠ p.msb)]
  exact Bool.and_eq_true_iff

theorem addflags_n (p q : Word) : (addflags p q).2.n = true ↔ sval (addflags p q).1 < 0 :=
  msb_iff_sval_neg _

@[simp] theorem subflags_result (m s : Word) : (subflags m s).1 = wrap16 (sval m - sval s) := rfl

theorem subflags_c (m s : Word) : (subflags m s).2.c = true ↔ sval m < sval s := decide_eq_true_iff

theorem subflags_z (m s : Word) : (subflags m s).2.z = true ↔ (subflags m s).1 = 0 :=
  decide_eq_true_iff

theorem subflags_o (m s : Word) :
    (subflags m s).2.o = true ↔ sval m - sval s < -32768 ∨ 32767 < sval m - sval s := by
  simp [subflags]

theorem subflags_n (m s : Word) : (subflags m s).2.n = true ↔ sval (subflags m s).1 < 0 :=
  msb_iff_sval_neg _

end Sys2Proof.Machine
end

