-- ==== Sys2Proof/Laws/Memory.lean ====
section
/-! SUPPORT. The laws of the memory operations: bounds, read after write, runs of reads, the fetch, and the
canonical form. -/

namespace Sys2Proof.Machine

theorem uval_lt (a : Word) : uval a < 65536 := a.isLt

theorem uval_addrAt (a : Word) (k : Nat) : uval (addrAt a k) = (uval a + k) % 65536 := by
  simp [uval, addrAt, BitVec.toNat_add]

/-- Only 0xFFFF has no byte behind it (20_memory.md rule R53). -/
theorem eq_last_of_unmapped {a : Word} (h : ¬uval a < Config.memSize) : a = 0xFFFF := by
  have := uval_lt a
  apply BitVec.eq_of_toNat_eq
  simp only [uval, Config.memSize] at *
  simp; omega

@[simp] theorem Memory.read_of_lt {m : Memory} {a : Word} (h : uval a < Config.memSize) :
    m.read a = .ok (m.byteAt (uval a)) := if_pos h

theorem Memory.read_of_not_lt {m : Memory} {a : Word} (h : ¬uval a < Config.memSize) :
    m.read a = .error a := if_neg h

theorem Memory.read_eq_ok {m : Memory} {a : Word} {b : Byte} :
    m.read a = .ok b ↔ uval a < Config.memSize ∧ m.byteAt (uval a) = b := by
  by_cases h : uval a < Config.memSize
  · simp [h]
  · simp [Memory.read_of_not_lt h, h]

theorem Memory.read_eq_error {m : Memory} {a bad : Word} :
    m.read a = .error bad ↔ Config.memSize ≤ uval a ∧ bad = a := by
  by_cases h : uval a < Config.memSize
  · simp [h]
  · simp [Memory.read_of_not_lt h, not_lt.mp h, eq_comm]

/-- A store inside memory: the byte at one address afterwards. -/
theorem Memory.byteAt_store {m : Memory} (hm : m.wf = true) {a : Word} (ha : uval a < Config.memSize)
    (v : Byte) (k : Nat) : (m.store a v).byteAt k = if k = uval a then v else m.byteAt k := by
  simp only [Memory.store, Memory.write, if_pos ha]
  exact Sparse.get_set hm

/-- A store to the address that has no byte changes nothing. -/
theorem Memory.store_of_not_lt {m : Memory} {a : Word} (ha : ¬uval a < Config.memSize) (v : Byte) :
    m.store a v = m := by
  simp only [Memory.store, Memory.write, if_neg ha]

theorem Memory.wf_nil : Memory.wf [] = true := rfl

/-- A store keeps the canonical form. -/
theorem Memory.wf_store {m : Memory} (hm : m.wf = true) (a : Word) (v : Byte) :
    (m.store a v).wf = true := by
  by_cases ha : uval a < Config.memSize
  · simp only [Memory.store, Memory.write, if_pos ha]
    exact Sparse.wfFrom_set (Nat.zero_le _) ha hm
  · rw [Memory.store_of_not_lt ha]; exact hm

/-- `MemWrite` keeps the canonical form. -/
theorem Memory.wf_write {m m' : Memory} (hm : m.wf = true) {a : Word} {v : Byte}
    (h : m.write a v = .ok m') : m'.wf = true := by
  have := Memory.wf_store hm a v
  rwa [Memory.store, h] at this

theorem Memory.wf_storeInstr {m : Memory} (hm : m.wf = true) (a : Word) (r : RawInstr) :
    (m.storeInstr a r).wf = true :=
  Memory.wf_store (Memory.wf_store (Memory.wf_store (Memory.wf_store hm _ _) _ _) _ _) _ _

theorem Memory.wf_ofList {l : List Byte} (h : l.length ≤ Config.memSize) :
    Memory.wf (Sparse.ofList Memory.unlisted 0 l) = true :=
  Sparse.wfFrom_ofList _ 0 l (by omega)

theorem Memory.byteAt_ofList (l : List Byte) (k : Nat) :
    Memory.byteAt (Sparse.ofList Memory.unlisted 0 l) k = l.getD k 0 := by
  have := Sparse.get_ofList (d := Memory.unlisted) 0 l k
  simpa [Memory.byteAt, Memory.unlisted] using this

/-- A run of reads inside memory gives the bytes in order. -/
theorem Memory.readRun_of_le {m : Memory} {a : Word} {n : Nat} (h : uval a + n ≤ Config.memSize) :
    m.readRun a n = .ok ((List.range n).map fun k => m.byteAt (uval a + k)) := by
  induction n generalizing a with
  | zero => rfl
  | succ n ih =>
    have hlt : uval a < Config.memSize := by omega
    have h1 : n ≠ 0 → uval (addrAt a 1) = uval a + 1 := fun hn => by
      rw [uval_addrAt, Nat.mod_eq_of_lt]; simp only [Config.memSize] at h; omega
    rw [Memory.readRun, Memory.read_of_lt hlt]
    cases n with
    | zero => rfl
    | succ n =>
      have h1 := h1 (by omega)
      rw [ih (by omega)]
      rw [List.range_succ_eq_map (n := n + 1), List.map_cons, List.map_map, h1]
      simp only [Nat.add_zero, Function.comp_def, Nat.succ_eq_add_one, List.range_succ_eq_map,
        List.map_cons, List.map_map, Nat.zero_add]
      simp only [Nat.add_assoc, Nat.add_comm 1]

/-- A run of reads that leaves memory reports 0xFFFF. -/
theorem Memory.readRun_of_lt {m : Memory} {a : Word} {n : Nat} (hn : 0 < n)
    (h : Config.memSize < uval a + n) : m.readRun a n = .error 0xFFFF := by
  induction n generalizing a with
  | zero => omega
  | succ n ih =>
    by_cases hlt : uval a < Config.memSize
    · have h1 : uval (addrAt a 1) = uval a + 1 := by
        rw [uval_addrAt, Nat.mod_eq_of_lt]; simp only [Config.memSize] at hlt; omega
      rw [Memory.readRun, Memory.read_of_lt hlt]
      rw [ih (by omega) (by omega)]
    · have ha := eq_last_of_unmapped hlt
      rw [Memory.readRun, Memory.read_of_not_lt hlt, ha]

theorem Memory.readRun_zero (m : Memory) (a : Word) : m.readRun a 0 = .ok [] := rfl

/-- What a run of reads can answer, said once. -/
theorem Memory.readRun_cases (m : Memory) (a : Word) (n : Nat) :
    (m.readRun a n = .ok ((List.range n).map fun k => m.byteAt (uval a + k)) ∧
        (n = 0 ∨ uval a + n ≤ Config.memSize)) ∨
      (m.readRun a n = .error 0xFFFF ∧ 0 < n ∧ Config.memSize < uval a + n) := by
  by_cases hn : n = 0
  · subst hn; exact .inl ⟨rfl, .inl rfl⟩
  · by_cases h : uval a + n ≤ Config.memSize
    · exact .inl ⟨Memory.readRun_of_le h, .inr h⟩
    · exact .inr ⟨Memory.readRun_of_lt (by omega) (by omega), by omega, by omega⟩

/-- A fetch whose four bytes exist gives them. -/
theorem Memory.fetch_of_read {m : Memory} {a : Word} {b0 b1 b2 b3 : Byte} (h0 : m.read a = .ok b0)
    (h1 : m.read (addrAt a 1) = .ok b1) (h2 : m.read (addrAt a 2) = .ok b2)
    (h3 : m.read (addrAt a 3) = .ok b3) : m.fetch a = .ok ⟨b0, b1, b2, b3⟩ := by
  simp [Memory.fetch, h0, h1, h2, h3]

/-- What a fetch can answer, said once: the four bytes, or the bytes before 0xFFFF and that address. -/
theorem Memory.fetch_cases (m : Memory) (a : Word) :
    (uval a < 0xFFFC ∧ m.fetch a = .ok ⟨m.byteAt (uval a), m.byteAt (uval a + 1), m.byteAt (uval a + 2),
        m.byteAt (uval a + 3)⟩) ∨
      (0xFFFC ≤ uval a ∧
        m.fetch a = .error ((List.range (0xFFFF - uval a)).map fun k => m.byteAt (uval a + k), 0xFFFF)) := by
  have bound := uval_lt a
  have first (h : uval a < 65535) : m.read a = .ok (m.byteAt (uval a)) := Memory.read_of_lt h
  have later (k : Nat) (h : uval a + k < 65535) :
      m.read (addrAt a k) = .ok (m.byteAt (uval a + k)) := by
    have e : uval (addrAt a k) = uval a + k := by rw [uval_addrAt]; omega
    exact e ▸ Memory.read_of_lt (by rw [e]; exact h)
  have last (k : Nat) (h : uval a + k = 65535) : m.read (addrAt a k) = .error 0xFFFF := by
    have e : ¬uval (addrAt a k) < Config.memSize := by rw [uval_addrAt, h]; decide
    rw [Memory.read_of_not_lt e, eq_last_of_unmapped e]
  rcases (by omega : uval a < 0xFFFC ∨ uval a = 0xFFFC ∨ uval a = 0xFFFD ∨ uval a = 0xFFFE ∨ uval a = 0xFFFF)
    with h | h | h | h | h
  · exact .inl ⟨h, Memory.fetch_of_read (first (by omega)) (later 1 (by omega)) (later 2 (by omega))
      (later 3 (by omega))⟩
  · refine .inr ⟨by omega, ?_⟩
    rw [Memory.fetch, first (by omega), later 1 (by omega), later 2 (by omega), last 3 (by omega), h]
    rfl
  · refine .inr ⟨by omega, ?_⟩
    rw [Memory.fetch, first (by omega), later 1 (by omega), last 2 (by omega), h]
    rfl
  · refine .inr ⟨by omega, ?_⟩
    rw [Memory.fetch, first (by omega), last 1 (by omega), h]
    rfl
  · refine .inr ⟨by omega, ?_⟩
    have e : ¬uval a < Config.memSize := by rw [h]; decide
    rw [Memory.fetch, Memory.read_of_not_lt e, eq_last_of_unmapped e]
    rfl

/-- A fetch that succeeds read its four bytes. -/
theorem Memory.read_of_fetch {m : Memory} {a : Word} {r : RawInstr} (h : m.fetch a = .ok r) :
    m.read a = .ok r.b0 ∧ m.read (addrAt a 1) = .ok r.b1 ∧ m.read (addrAt a 2) = .ok r.b2 ∧
      m.read (addrAt a 3) = .ok r.b3 := by
  unfold Memory.fetch at h
  split at h <;> rename_i h0 <;> try cases h
  split at h <;> rename_i h1 <;> try cases h
  split at h <;> rename_i h2 <;> try cases h
  split at h <;> rename_i h3 <;> try cases h
  exact ⟨h0, h1, h2, h3⟩

/-- A fetch that fails names an address that has no byte. -/
theorem Memory.fetch_bad {m : Memory} {a bad : Word} {bs : List Byte}
    (h : m.fetch a = .error (bs, bad)) : Config.memSize ≤ uval bad := by
  unfold Memory.fetch at h
  split at h
  · rename_i h0; cases h; obtain ⟨h, rfl⟩ := Memory.read_eq_error.mp h0; exact h
  split at h
  · rename_i h0; cases h; obtain ⟨h, rfl⟩ := Memory.read_eq_error.mp h0; exact h
  split at h
  · rename_i h0; cases h; obtain ⟨h, rfl⟩ := Memory.read_eq_error.mp h0; exact h
  split at h
  · rename_i h0; cases h; obtain ⟨h, rfl⟩ := Memory.read_eq_error.mp h0; exact h
  · cases h

end Sys2Proof.Machine
end

