-- ==== Sys2Proof/Laws/Load.lean ====
section
/-! SUPPORT. What a launch and the load of a cartridge file can do, said once. -/

namespace Sys2Proof.Machine

/-- A launch of an image that fits. -/
theorem launch_of_le {image : List Byte} (h : image.length ≤ Config.memSize) (start : Word) :
    launch image start =
      .next { State.reset with mem := Sparse.ofList Memory.unlisted 0 image, pc := start } := if_pos h

/-- A launch of an image that does not fit. -/
theorem launch_of_lt {image : List Byte} (h : Config.memSize < image.length) (start : Word) :
    launch image start = .refused .payloadTooLong := if_neg (by omega)

/-- The two bytes of a 16-bit number, the low one first. -/
theorem ofNat_littleEndian_two (lo hi : Byte) : BitVec.ofNat 16 (littleEndian [lo, hi]) = hi ++ lo := by
  apply BitVec.eq_of_toNat_eq
  have whole : BitVec.toNat (w := 16) (hi ++ lo) = hi.toNat <<< 8 ||| lo.toNat := BitVec.toNat_append _ _
  rw [whole, ← Nat.shiftLeft_add_eq_or_of_lt lo.isLt, Nat.shiftLeft_eq, BitVec.toNat_ofNat]
  have low := lo.isLt
  have high := hi.isLt
  simp only [littleEndian]
  omega

/-- What a file gives, whose header and the rest are these. -/
theorem readCartridge_append (m0 m1 m2 m3 reserved version z0 z1 z2 z3 lo hi c0 c1 c2 c3 : Byte)
    (rest : List Byte) :
    readCartridge ([m0, m1, m2, m3, reserved, version, z0, z1, z2, z3, lo, hi, c0, c1, c2, c3] ++ rest) =
      if littleEndian [z0, z1, z2, z3] ≤ rest.length then
        some { image := rest.take (littleEndian [z0, z1, z2, z3]), start := hi ++ lo }
      else none := by
  rw [← ofNat_littleEndian_two]
  unfold readCartridge
  simp only [List.length_cons, List.cons_append, List.nil_append,
    List.drop_succ_cons, List.drop_zero, List.take_succ_cons, List.take_zero]
  refine if_congr ?_ rfl rfl
  omega

/-- A file shorter than a header gives nothing. -/
theorem readCartridge_of_short {file : List Byte} (h : file.length < 16) : readCartridge file = none :=
  if_neg (by omega)

end Sys2Proof.Machine
end

