-- ==== Sys2Proof/Laws/PerInstr.lean ====
section
/-! SUPPORT. Statements made of every instruction as syntax, one lemma per constructor. -/

namespace Sys2Proof.Laws.EncodeWellFormed

/-- The encoder writes four bytes that are an instruction of the table. -/
def Statement (i : Instr) : Prop := (encode i).wellFormed = true

theorem cls : Statement .cls := rfl
theorem vblnk : Statement .vblnk := rfl
theorem bgc (n : Nibble) : Statement (.bgc n) := rfl
theorem spr (w h : Byte) : Statement (.spr w h) := rfl
theorem drw (x y : Reg) (imm : Word) : Statement (.drw x y imm) := rfl
theorem jmp (imm : Word) : Statement (.jmp imm) := rfl
theorem jz (imm : Word) : Statement (.jz imm) := rfl
theorem jc (imm : Word) : Statement (.jc imm) := rfl
theorem jme (x y : Reg) (imm : Word) : Statement (.jme x y imm) := rfl
theorem ldi (x : Reg) (imm : Word) : Statement (.ldi x imm) := rfl
theorem mov (x y : Reg) : Statement (.mov x y) := rfl
theorem add (x y : Reg) : Statement (.add x y) := rfl
theorem subi (x : Reg) (imm : Word) : Statement (.subi x imm) := rfl
theorem sub (x y : Reg) : Statement (.sub x y) := rfl
theorem sub3 (x y z : Reg) : Statement (.sub3 x y z) := rfl

end Sys2Proof.Laws.EncodeWellFormed
end

