-- ==== Sys2Proof/Laws/State.lean ====
section
/-! SUPPORT. One lemma per field per update of the state, and the registers' read after write. -/

namespace Sys2Proof.Machine

variable (s : State)

section WriteReg

variable (i : Reg) (v : Word)

@[simp] theorem State.writeReg_regs : (s.writeReg i v).regs = s.regs.set i.toNat v i.isLt := rfl
@[simp] theorem State.writeReg_pc : (s.writeReg i v).pc = s.pc := rfl
@[simp] theorem State.writeReg_sp : (s.writeReg i v).sp = s.sp := rfl
@[simp] theorem State.writeReg_flags : (s.writeReg i v).flags = s.flags := rfl
@[simp] theorem State.writeReg_bg : (s.writeReg i v).bg = s.bg := rfl
@[simp] theorem State.writeReg_fg : (s.writeReg i v).fg = s.fg := rfl
@[simp] theorem State.writeReg_spritew : (s.writeReg i v).spritew = s.spritew := rfl
@[simp] theorem State.writeReg_spriteh : (s.writeReg i v).spriteh = s.spriteh := rfl
@[simp] theorem State.writeReg_vblank : (s.writeReg i v).vblank = s.vblank := rfl
@[simp] theorem State.writeReg_mem : (s.writeReg i v).mem = s.mem := rfl
@[simp] theorem State.writeReg_fb : (s.writeReg i v).fb = s.fb := rfl
@[simp] theorem State.writeReg_fault : (s.writeReg i v).fault = s.fault := rfl
@[simp] theorem State.writeReg_stopped : (s.writeReg i v).stopped = s.stopped := rfl

end WriteReg

section WriteResult

variable (i : Reg) (rf : Word × Flags)

@[simp] theorem State.writeResult_regs : (s.writeResult i rf).regs = s.regs.set i.toNat rf.1 i.isLt := rfl
@[simp] theorem State.writeResult_pc : (s.writeResult i rf).pc = s.pc := rfl
@[simp] theorem State.writeResult_sp : (s.writeResult i rf).sp = s.sp := rfl
@[simp] theorem State.writeResult_flags : (s.writeResult i rf).flags = rf.2 := rfl
@[simp] theorem State.writeResult_bg : (s.writeResult i rf).bg = s.bg := rfl
@[simp] theorem State.writeResult_fg : (s.writeResult i rf).fg = s.fg := rfl
@[simp] theorem State.writeResult_spritew : (s.writeResult i rf).spritew = s.spritew := rfl
@[simp] theorem State.writeResult_spriteh : (s.writeResult i rf).spriteh = s.spriteh := rfl
@[simp] theorem State.writeResult_vblank : (s.writeResult i rf).vblank = s.vblank := rfl
@[simp] theorem State.writeResult_mem : (s.writeResult i rf).mem = s.mem := rfl
@[simp] theorem State.writeResult_fb : (s.writeResult i rf).fb = s.fb := rfl
@[simp] theorem State.writeResult_fault : (s.writeResult i rf).fault = s.fault := rfl
@[simp] theorem State.writeResult_stopped : (s.writeResult i rf).stopped = s.stopped := rfl

end WriteResult

section Advance

@[simp] theorem State.advance_regs : s.advance.regs = s.regs := rfl
@[simp] theorem State.advance_pc : s.advance.pc = addrAt s.pc 4 := rfl
@[simp] theorem State.advance_sp : s.advance.sp = s.sp := rfl
@[simp] theorem State.advance_flags : s.advance.flags = s.flags := rfl
@[simp] theorem State.advance_bg : s.advance.bg = s.bg := rfl
@[simp] theorem State.advance_fg : s.advance.fg = s.fg := rfl
@[simp] theorem State.advance_spritew : s.advance.spritew = s.spritew := rfl
@[simp] theorem State.advance_spriteh : s.advance.spriteh = s.spriteh := rfl
@[simp] theorem State.advance_vblank : s.advance.vblank = s.vblank := rfl
@[simp] theorem State.advance_mem : s.advance.mem = s.mem := rfl
@[simp] theorem State.advance_fb : s.advance.fb = s.fb := rfl
@[simp] theorem State.advance_fault : s.advance.fault = s.fault := rfl
@[simp] theorem State.advance_stopped : s.advance.stopped = s.stopped := rfl
@[simp] theorem State.advance_readReg (j : Reg) : s.advance.readReg j = s.readReg j := rfl

end Advance

section Rewind

@[simp] theorem State.rewind_regs : s.rewind.regs = s.regs := rfl
@[simp] theorem State.rewind_pc : s.rewind.pc = s.pc - 4 := rfl
@[simp] theorem State.rewind_sp : s.rewind.sp = s.sp := rfl
@[simp] theorem State.rewind_flags : s.rewind.flags = s.flags := rfl
@[simp] theorem State.rewind_bg : s.rewind.bg = s.bg := rfl
@[simp] theorem State.rewind_fg : s.rewind.fg = s.fg := rfl
@[simp] theorem State.rewind_spritew : s.rewind.spritew = s.spritew := rfl
@[simp] theorem State.rewind_spriteh : s.rewind.spriteh = s.spriteh := rfl
@[simp] theorem State.rewind_vblank : s.rewind.vblank = s.vblank := rfl
@[simp] theorem State.rewind_mem : s.rewind.mem = s.mem := rfl
@[simp] theorem State.rewind_fb : s.rewind.fb = s.fb := rfl
@[simp] theorem State.rewind_fault : s.rewind.fault = s.fault := rfl
@[simp] theorem State.rewind_stopped : s.rewind.stopped = s.stopped := rfl
@[simp] theorem State.rewind_readReg (j : Reg) : s.rewind.readReg j = s.readReg j := rfl

end Rewind

section Jump

variable (a : Word)

@[simp] theorem State.jump_regs : (s.jump a).regs = s.regs := rfl
@[simp] theorem State.jump_pc : (s.jump a).pc = a := rfl
@[simp] theorem State.jump_sp : (s.jump a).sp = s.sp := rfl
@[simp] theorem State.jump_flags : (s.jump a).flags = s.flags := rfl
@[simp] theorem State.jump_bg : (s.jump a).bg = s.bg := rfl
@[simp] theorem State.jump_fg : (s.jump a).fg = s.fg := rfl
@[simp] theorem State.jump_spritew : (s.jump a).spritew = s.spritew := rfl
@[simp] theorem State.jump_spriteh : (s.jump a).spriteh = s.spriteh := rfl
@[simp] theorem State.jump_vblank : (s.jump a).vblank = s.vblank := rfl
@[simp] theorem State.jump_mem : (s.jump a).mem = s.mem := rfl
@[simp] theorem State.jump_fb : (s.jump a).fb = s.fb := rfl
@[simp] theorem State.jump_fault : (s.jump a).fault = s.fault := rfl
@[simp] theorem State.jump_stopped : (s.jump a).stopped = s.stopped := rfl
@[simp] theorem State.jump_readReg (j : Reg) : (s.jump a).readReg j = s.readReg j := rfl

end Jump

section Raise

variable (a : Word) (bs : List Byte) (c : FaultCause)

@[simp] theorem State.raise_regs : (s.raise a bs c).regs = s.regs := rfl
@[simp] theorem State.raise_pc : (s.raise a bs c).pc = s.pc := rfl
@[simp] theorem State.raise_sp : (s.raise a bs c).sp = s.sp := rfl
@[simp] theorem State.raise_flags : (s.raise a bs c).flags = s.flags := rfl
@[simp] theorem State.raise_bg : (s.raise a bs c).bg = s.bg := rfl
@[simp] theorem State.raise_fg : (s.raise a bs c).fg = s.fg := rfl
@[simp] theorem State.raise_spritew : (s.raise a bs c).spritew = s.spritew := rfl
@[simp] theorem State.raise_spriteh : (s.raise a bs c).spriteh = s.spriteh := rfl
@[simp] theorem State.raise_vblank : (s.raise a bs c).vblank = s.vblank := rfl
@[simp] theorem State.raise_mem : (s.raise a bs c).mem = s.mem := rfl
@[simp] theorem State.raise_fb : (s.raise a bs c).fb = s.fb := rfl
@[simp] theorem State.raise_fault : (s.raise a bs c).fault = some { cause := c, addr := a, bytes := bs } := rfl
@[simp] theorem State.raise_stopped : (s.raise a bs c).stopped = s.stopped := rfl
@[simp] theorem State.raise_readReg (j : Reg) : (s.raise a bs c).readReg j = s.readReg j := rfl

end Raise

section SetLatch

@[simp] theorem State.setLatch_regs : s.setLatch.regs = s.regs := rfl
@[simp] theorem State.setLatch_pc : s.setLatch.pc = s.pc := rfl
@[simp] theorem State.setLatch_sp : s.setLatch.sp = s.sp := rfl
@[simp] theorem State.setLatch_flags : s.setLatch.flags = s.flags := rfl
@[simp] theorem State.setLatch_bg : s.setLatch.bg = s.bg := rfl
@[simp] theorem State.setLatch_fg : s.setLatch.fg = s.fg := rfl
@[simp] theorem State.setLatch_spritew : s.setLatch.spritew = s.spritew := rfl
@[simp] theorem State.setLatch_spriteh : s.setLatch.spriteh = s.spriteh := rfl
@[simp] theorem State.setLatch_vblank : s.setLatch.vblank = true := rfl
@[simp] theorem State.setLatch_mem : s.setLatch.mem = s.mem := rfl
@[simp] theorem State.setLatch_fb : s.setLatch.fb = s.fb := rfl
@[simp] theorem State.setLatch_fault : s.setLatch.fault = s.fault := rfl
@[simp] theorem State.setLatch_stopped : s.setLatch.stopped = s.stopped := rfl
@[simp] theorem State.setLatch_readReg (j : Reg) : s.setLatch.readReg j = s.readReg j := rfl

end SetLatch

section Stop

@[simp] theorem State.stop_regs : s.stop.regs = s.regs := rfl
@[simp] theorem State.stop_pc : s.stop.pc = s.pc := rfl
@[simp] theorem State.stop_sp : s.stop.sp = s.sp := rfl
@[simp] theorem State.stop_flags : s.stop.flags = s.flags := rfl
@[simp] theorem State.stop_bg : s.stop.bg = s.bg := rfl
@[simp] theorem State.stop_fg : s.stop.fg = s.fg := rfl
@[simp] theorem State.stop_spritew : s.stop.spritew = s.spritew := rfl
@[simp] theorem State.stop_spriteh : s.stop.spriteh = s.spriteh := rfl
@[simp] theorem State.stop_vblank : s.stop.vblank = s.vblank := rfl
@[simp] theorem State.stop_mem : s.stop.mem = s.mem := rfl
@[simp] theorem State.stop_fb : s.stop.fb = s.fb := rfl
@[simp] theorem State.stop_fault : s.stop.fault = s.fault := rfl
@[simp] theorem State.stop_stopped : s.stop.stopped = true := rfl
@[simp] theorem State.stop_readReg (j : Reg) : s.stop.readReg j = s.readReg j := rfl

end Stop

section JumpIf

variable (b : Bool) (a : Word)

@[simp] theorem State.jumpIf_regs : (s.jumpIf b a).regs = s.regs := by cases b <;> rfl
@[simp] theorem State.jumpIf_pc : (s.jumpIf b a).pc = if b then a else s.pc := by cases b <;> rfl
@[simp] theorem State.jumpIf_sp : (s.jumpIf b a).sp = s.sp := by cases b <;> rfl
@[simp] theorem State.jumpIf_flags : (s.jumpIf b a).flags = s.flags := by cases b <;> rfl
@[simp] theorem State.jumpIf_bg : (s.jumpIf b a).bg = s.bg := by cases b <;> rfl
@[simp] theorem State.jumpIf_fg : (s.jumpIf b a).fg = s.fg := by cases b <;> rfl
@[simp] theorem State.jumpIf_spritew : (s.jumpIf b a).spritew = s.spritew := by cases b <;> rfl
@[simp] theorem State.jumpIf_spriteh : (s.jumpIf b a).spriteh = s.spriteh := by cases b <;> rfl
@[simp] theorem State.jumpIf_vblank : (s.jumpIf b a).vblank = s.vblank := by cases b <;> rfl
@[simp] theorem State.jumpIf_mem : (s.jumpIf b a).mem = s.mem := by cases b <;> rfl
@[simp] theorem State.jumpIf_fb : (s.jumpIf b a).fb = s.fb := by cases b <;> rfl
@[simp] theorem State.jumpIf_fault : (s.jumpIf b a).fault = s.fault := by cases b <;> rfl
@[simp] theorem State.jumpIf_stopped : (s.jumpIf b a).stopped = s.stopped := by cases b <;> rfl
@[simp] theorem State.jumpIf_readReg (j : Reg) : (s.jumpIf b a).readReg j = s.readReg j := by cases b <;> rfl

end JumpIf

/-- Register `j` after a write of register `i` (10_state.md rule R21). -/
@[simp] theorem State.readReg_writeReg (i j : Reg) (v : Word) :
    (s.writeReg i v).readReg j = if j = i then v else s.readReg j := by
  unfold State.readReg State.writeReg
  simp only [Vector.get_eq_getElem, Vector.getElem_set]
  by_cases h : j = i
  · subst h; simp
  · rw [if_neg h, if_neg]
    intro h'
    exact h (BitVec.eq_of_toNat_eq (by simpa using h'.symm))

/-- Register `j` after an arithmetic result is written to register `i`. -/
@[simp] theorem State.readReg_writeResult (i j : Reg) (rf : Word × Flags) :
    (s.writeResult i rf).readReg j = if j = i then rf.1 else s.readReg j :=
  State.readReg_writeReg s i j rf.1

/-- Two register files that read the same are the same. -/
theorem State.regs_ext {s t : State} (h : ∀ j, t.readReg j = s.readReg j) : t.regs = s.regs := by
  apply Vector.ext
  intro k hk
  have := h (BitVec.ofNat 4 k)
  simpa [State.readReg, Vector.get_eq_getElem, Nat.mod_eq_of_lt hk] using this

end Sys2Proof.Machine
end

