-- ==== Sys2Proof/Laws/Step.lean ====
section
/-! SUPPORT. What a step, a cycle and the body of an instruction can do, said once. -/

namespace Sys2Proof.Machine

/-- A step that answers is a cycle of a core that may run. -/
theorem step_next {s t : State} (h : step s = .next t) : CanStep s ∧ cycle s = .next t := by
  unfold step at h
  split at h <;> rename_i hs
  · cases h
  · split at h <;> rename_i hf
    · cases h
    · exact ⟨⟨by simpa using hs, hf⟩, h⟩

/-- A core that may run does a cycle. -/
theorem step_of_canStep {s : State} (h : CanStep s) : step s = cycle s := by
  simp [step, h.1, h.2]

/-- The three ways a cycle goes: the fetch raises, the decoding raises, or a body runs. -/
theorem cycle_cases {s t : State} (h : cycle s = .next t) :
    (∃ bs bad, s.mem.fetch s.pc = .error (bs, bad) ∧ t = s.raise s.pc bs (.memoryBounds bad)) ∨
      (∃ r e, s.mem.fetch s.pc = .ok r ∧ decode r = .error e ∧
        t = s.advance.raise s.pc r.toList (causeOfDecodeError e)) ∨
      (∃ r i, s.mem.fetch s.pc = .ok r ∧ decode r = .ok i ∧ exec i s.advance = .next t) := by
  unfold cycle at h
  split at h <;> rename_i hf
  · cases h; exact .inl ⟨_, _, hf, rfl⟩
  · rename_i r
    unfold dispatchRaw at h
    split at h <;> rename_i hd
    · cases h; exact .inr (.inl ⟨_, _, hf, hd, rfl⟩)
    · exact .inr (.inr ⟨_, _, hf, hd, h⟩)

/-- The body of DRW raises or draws; nothing else. -/
theorem execDrw_cases (x y : Reg) (imm : Word) (s : State) :
    (0 < s.spriteBytes ∧ Config.memSize < uval imm + s.spriteBytes ∧
        execDrw x y imm s =
          .next (s.raise s.bodyAddr (encode (.drw x y imm)).toList (.memoryBounds 0xFFFF))) ∨
      ((s.spriteBytes = 0 ∨ uval imm + s.spriteBytes ≤ Config.memSize) ∧
        execDrw x y imm s =
          let drawn := rasterize ((List.range s.spriteBytes).map fun k => s.mem.byteAt (uval imm + k))
            s.spritew.toNat s.spriteh.toNat (s.readCoord x) (s.readCoord y) s.bg s.fb
          .next { s with fb := drawn.1, flags := { s.flags with c := drawn.2 } }) := by
  rcases Memory.readRun_cases s.mem imm s.spriteBytes with ⟨h, hb⟩ | ⟨h, hb⟩
  · exact .inr ⟨hb, by simp only [execDrw, h]⟩
  · exact .inl ⟨hb.1, hb.2, by simp only [execDrw, h]⟩

/-- The body of JME jumps or leaves the state; nothing else. -/
theorem execJme_cases (x y : Reg) (imm : Word) (s : State) :
    (s.readReg x = s.readReg y ∧ execJme x y imm s = .next (s.jump imm)) ∨
      (s.readReg x ≠ s.readReg y ∧ execJme x y imm s = .next s) := by
  by_cases h : s.readReg x = s.readReg y
  · exact .inl ⟨h, by rw [execJme, decide_eq_true h]; rfl⟩
  · exact .inr ⟨h, by rw [execJme, decide_eq_false h]; rfl⟩

/-- No body writes memory, `sp` or the host's stop. -/
theorem exec_keeps {i : Instr} {s t : State} (h : exec i s = .next t) :
    t.mem = s.mem ∧ t.sp = s.sp ∧ t.stopped = s.stopped := by
  cases i with
  | vblnk =>
    simp only [exec, execVblnk] at h
    split at h <;> cases h <;> exact ⟨rfl, rfl, rfl⟩
  | drw x y imm =>
    rcases execDrw_cases x y imm s with ⟨-, -, e⟩ | ⟨-, e⟩ <;>
      (rw [exec, e] at h; cases h; exact ⟨rfl, rfl, rfl⟩)
  | _ => cases h; simp

/-- A body keeps the framebuffer's canonical form. -/
theorem exec_fb_wf {i : Instr} {s t : State} (h : exec i s = .next t) (hs : s.fb.wf = true) :
    t.fb.wf = true := by
  cases i with
  | cls => cases h; exact Framebuffer.wf_filled _
  | vblnk =>
    simp only [exec, execVblnk] at h
    split at h <;> cases h <;> exact hs
  | drw x y imm =>
    rcases execDrw_cases x y imm s with ⟨-, -, e⟩ | ⟨-, e⟩ <;> (rw [exec, e] at h; cases h)
    · exact hs
    · exact rasterize_wf _ _ _ _ _ _ hs
  | _ => cases h; simpa using hs

/-- Only DRW's body writes the fault latch, and only with its own record. -/
theorem exec_fault {i : Instr} {s t : State} (h : exec i s = .next t) :
    t.fault = s.fault ∨
      ∃ x y imm, i = .drw x y imm ∧
        t = s.raise s.bodyAddr (encode (.drw x y imm)).toList (.memoryBounds 0xFFFF) := by
  cases i with
  | vblnk =>
    simp only [exec, execVblnk] at h
    split at h <;> cases h <;> exact .inl rfl
  | drw x y imm =>
    rcases execDrw_cases x y imm s with ⟨-, -, e⟩ | ⟨-, e⟩ <;> (rw [exec, e] at h; cases h)
    · exact .inr ⟨x, y, imm, rfl, rfl⟩
    · exact .inl rfl
  | _ => cases h; simp

/-- The address of the running body is the fetch address. -/
@[simp] theorem State.bodyAddr_advance (s : State) : s.advance.bodyAddr = s.pc := by
  simp [State.bodyAddr, addrAt]

end Sys2Proof.Machine
end

