-- ==== Sys2Proof/Machine/Assembler.lean ====
section
/-! DEFINITION. The assembler syntax (30_encoding.md rules R100, R101): how an instruction is written as text.
The bytes an assembler writes for it are `encode`. The spellings beyond the document's three examples are the
spec's own decision D26 (log entry 22). No behaviour depends on this file. -/

namespace Sys2Proof

/-- A hexadecimal digit (rule R100). -/
def hexDigit (n : Nibble) : String :=
  match ["0", "1", "2", "3", "4", "5", "6", "7", "8", "9", "A", "B", "C", "D", "E", "F"][n.toNat]? with
  | some d => d
  | none => ""

/-- A register's name, `R0` to `RF` (rule R100). -/
def Reg.name (r : Reg) : String := "R" ++ hexDigit r

/-- A number of 4 bits with the prefix `0x` (rule R100). -/
def nibbleText (n : Nibble) : String := "0x" ++ hexDigit n

/-- A number of 8 bits with the prefix `0x`. -/
def byteText (b : Byte) : String := "0x" ++ hexDigit (highNibble b) ++ hexDigit (lowNibble b)

/-- A number of 16 bits with the prefix `0x`. -/
def wordText (v : Word) : String :=
  "0x" ++ hexDigit (highNibble (highByte v)) ++ hexDigit (lowNibble (highByte v)) ++
    hexDigit (highNibble (lowByte v)) ++ hexDigit (lowNibble (lowByte v))

/-- The operands in the order the syntax writes them: the register in field `x` before the one in field `y`,
the immediate or `z` last (rule R101). -/
def Instr.operandTexts : Instr → List String
  | .cls | .vblnk => []
  | .bgc n => [nibbleText n]
  | .spr w h => [byteText w, byteText h]
  | .drw x y imm => [Reg.name x, Reg.name y, wordText imm]
  | .jmp imm | .jz imm | .jc imm => [wordText imm]
  | .jme x y imm => [Reg.name x, Reg.name y, wordText imm]
  | .ldi x imm => [Reg.name x, wordText imm]
  | .mov x y | .add x y | .sub x y => [Reg.name x, Reg.name y]
  | .subi x imm => [Reg.name x, wordText imm]
  | .sub3 x y z => [Reg.name x, Reg.name y, Reg.name z]

/-- The instruction as an assembler reads it: the mnemonic first, the operands separated by commas
(rule R101). -/
def Instr.text (i : Instr) : String :=
  match i.operandTexts with
  | [] => i.mnemonic
  | operands => i.mnemonic ++ " " ++ ", ".intercalate operands

end Sys2Proof
end

