-- ==== Sys2Proof/Tests/Slice0.lean ====
section
/-! SUPPORT. The model's own tests. Expected results are the document's examples E<n>, the spec's hand-derived
vectors V<n> and programs P<n> (95_test_vectors.md), or words written out from 30_encoding.md section 2. The
witnesses at the end show that the hypotheses of the obligations can be met. -/

namespace Sys2Proof.Tests

open Sys2Proof Sys2Proof.Machine

/-! Well-formedness: each check refuses an ill-formed term -/

/-- First check: an opcode byte outside the table (V7.1). -/
theorem test_wellFormed_refuses_opcode : (RawInstr.mk 0x00 0x00 0x00 0x00).wellFormed = false := by decide

/-- Second check: opcode 0x12 with a selector that is neither 0 nor 9 (V3.11). -/
theorem test_wellFormed_refuses_selector : (RawInstr.mk 0x12 0x01 0x40 0x00).wellFormed = false := by decide

/-- The selector is checked in opcode 0x12 only. -/
theorem test_wellFormed_accepts : (RawInstr.mk 0x13 0x21 0xFF 0xFF).wellFormed = true := by decide

/-! Decoding: for every constructor a word written out from the spec's encoding of it -/

theorem test_decode_cls : decode ⟨0b00000001, 0xFF, 0xFF, 0xFF⟩ = .ok .cls := rfl
theorem test_decode_vblnk : decode ⟨0b00000010, 0x77, 0x88, 0x99⟩ = .ok .vblnk := rfl
theorem test_decode_bgc : decode ⟨0b00000011, 0xFF, 0xA7, 0xFF⟩ = .ok (.bgc 7) := rfl
theorem test_decode_spr : decode ⟨0b00000100, 0x99, 0x03, 0x08⟩ = .ok (.spr 3 8) := rfl
theorem test_decode_drw : decode ⟨0b00000101, 0x10, 0x00, 0x01⟩ = .ok (.drw 0 1 0x0100) := rfl
theorem test_decode_jmp : decode ⟨0b00010000, 0xAB, 0x34, 0x12⟩ = .ok (.jmp 0x1234) := rfl
theorem test_decode_jz : decode ⟨0b00010010, 0xF0, 0x40, 0x00⟩ = .ok (.jz 0x0040) := rfl
theorem test_decode_jc : decode ⟨0b00010010, 0x39, 0x40, 0x00⟩ = .ok (.jc 0x0040) := rfl
theorem test_decode_jme : decode ⟨0b00010011, 0x21, 0xFF, 0xFF⟩ = .ok (.jme 1 2 0xFFFF) := rfl
theorem test_decode_ldi : decode ⟨0b00100000, 0xA3, 0x00, 0x80⟩ = .ok (.ldi 3 0x8000) := rfl
theorem test_decode_mov : decode ⟨0b00100100, 0x72, 0x00, 0x00⟩ = .ok (.mov 2 7) := rfl
theorem test_decode_add : decode ⟨0b01000001, 0x10, 0x00, 0x00⟩ = .ok (.add 0 1) := rfl
theorem test_decode_subi : decode ⟨0b01010000, 0x00, 0x0A, 0x00⟩ = .ok (.subi 0 0x000A) := rfl
theorem test_decode_sub : decode ⟨0b01010001, 0x21, 0x00, 0x00⟩ = .ok (.sub 1 2) := rfl
theorem test_decode_sub3 : decode ⟨0b01010010, 0x21, 0xF3, 0x77⟩ = .ok (.sub3 1 2 3) := rfl
theorem test_decode_illegal :
    decode ⟨0x11, 0x00, 0x10, 0x00⟩ = .error (.unrecognizedOpcode 0x11) ∧
      decode ⟨0x12, 0x0F, 0x40, 0x00⟩ = .error (.unrecognizedCondition 15) := ⟨rfl, rfl⟩

/-- The rows of the table are pairwise disjoint on their fixed bits (opcode_table.json). -/
theorem test_table_rows_disjoint :
    opcodeTable.Pairwise fun p q => p.pattern &&& (p.mask &&& q.mask) ≠ q.pattern &&& (p.mask &&& q.mask) := by
  decide

/-- The host's numbering: the opcode is in bits 31 to 24 (INDEX.md). -/
theorem test_decodeTableWord : decodeTableWord 32 0x52210300 = some (.sub3 1 2 3) := by decide

/-- The syntax of the document's examples (E9, E10). -/
theorem test_text :
    (Instr.ldi 0 0x1234).text = "LDI R0, 0x1234" ∧ (Instr.jme 0 1 0x0010).text = "JME R0, R1, 0x0010" ∧
      (Instr.jmp 0x0010).text = "JMP 0x0010" := by decide

/-! Steps -/

/-- A cleared screen, an instruction at address 0, registers 0 to 3 and the flags as given. -/
def before (r : RawInstr) (r0 r1 r2 r3 : Word) (f : Flags) : State :=
  { State.reset with
    regs := (((State.reset.regs.set 0 r0).set 1 r1).set 2 r2).set 3 r3
    flags := f
    fb := []
    mem := Memory.storeInstr [] 0 r }

/-- What a test looks at: registers 0 to 3, the flags and `pc` after one step. -/
def seen (s : State) : Option (List Word × Flags × Word) :=
  match step s with
  | .next t => some ([t.readReg 0, t.readReg 1, t.readReg 2, t.readReg 3], t.flags, t.pc)
  | .fault _ => none
  | .refused _ => none

/-- Flags in the spec's order C Z O N. -/
def czon (c z o n : Bool) : Flags := { c := c, z := z, o := o, n := n }

/-- Flags that no test of an instruction that writes none may lose. -/
def someFlags : Flags := czon true false true false

/-- E7: CLS after BGC 5 fills with `P(0)`, not `P(5)`. -/
theorem test_cls (v : Pixel) :
    ∃ t, step { before ⟨0x01, 0xFF, 0xFF, 0xFF⟩ 0 0 0 0 (czon false false false false) with
        bg := 5, fg := 7, fb := [(0, v)] } = .next t ∧
      t.bg = 0 ∧ t.fg = 0 ∧ t.pc = 4 ∧ t.fb.read 319 239 = some (Config.palette 0) :=
  ⟨_, rfl, rfl, rfl, rfl, Framebuffer.read_filled rfl _⟩

/-- E6: with the latch clear `pc` stays, and with it set the latch is cleared and `pc` moves on. -/
theorem test_vblnk :
    step (before ⟨0x02, 0, 0, 0⟩ 0 0 0 0 someFlags) = .next (before ⟨0x02, 0, 0, 0⟩ 0 0 0 0 someFlags) ∧
      step { before ⟨0x02, 0, 0, 0⟩ 0 0 0 0 someFlags with vblank := true } =
        .next { before ⟨0x02, 0, 0, 0⟩ 0 0 0 0 someFlags with pc := 4 } := ⟨rfl, rfl⟩

/-- V1.8: only the low nibble of the third byte is the index. -/
theorem test_bgc :
    step (before ⟨0x03, 0xFF, 0xA7, 0xFF⟩ 0 0 0 0 someFlags) =
      .next { before ⟨0x03, 0xFF, 0xA7, 0xFF⟩ 0 0 0 0 someFlags with bg := 7, pc := 4 } := rfl

/-- V1.10: the width is the third byte, the height the fourth. -/
theorem test_spr :
    step (before ⟨0x04, 0x00, 0xFF, 0x00⟩ 0 0 0 0 someFlags) =
      .next { before ⟨0x04, 0x00, 0xFF, 0x00⟩ 0 0 0 0 someFlags with spritew := 255, spriteh := 0, pc := 4 } := rfl

/-- A DRW of R0, R1 from 0x0100, of one byte, with the sprite's byte there and all flags 1 (group V2). -/
def beforeDrw (byte : Byte) (r0 r1 : Word) (fb : Framebuffer) : State :=
  let s := before ⟨0x05, 0x10, 0x00, 0x01⟩ r0 r1 0 0 (czon true true true true)
  { s with mem := s.mem.store 0x0100 byte, spritew := 1, spriteh := 1, fb := fb }

/-- V2.1: the high nibble is the left pixel, and there is no collision on a cleared screen. -/
theorem test_drw_paints :
    ∃ t, step (beforeDrw 0x3A 0x000A 0x0014 []) = .next t ∧
      t.fb.read 10 20 = some (Config.palette 3) ∧ t.fb.read 11 20 = some (Config.palette 10) ∧
      t.flags = czon false true true true ∧ t.pc = 4 := by
  refine ⟨_, rfl, ?_, ?_, ?_, rfl⟩
  · show ((Framebuffer.write [] 10 20 (Config.palette 3)).write 11 20 (Config.palette 10)).read 10 20 = _
    rw [Framebuffer.read_write (Framebuffer.wf_write Framebuffer.wf_nil _ _ _), if_neg (by decide),
      Framebuffer.read_write Framebuffer.wf_nil, if_pos (by decide)]
  · show ((Framebuffer.write [] 10 20 (Config.palette 3)).write 11 20 (Config.palette 10)).read 11 20 = _
    rw [Framebuffer.read_write (Framebuffer.wf_write Framebuffer.wf_nil _ _ _), if_pos (by decide)]
  · have clear : (Framebuffer.write [] 10 20 (Config.palette 3)).cellAt (cellIndex 11 20) = Config.palette 0 := by
      have h := Framebuffer.read_write Framebuffer.wf_nil 10 20 11 20 (Config.palette 3)
      rw [if_neg (by decide), Framebuffer.read_of_inRange (by decide)] at h
      exact Option.some.inj h
    show Flags.mk ((false || decide (Config.palette 0 ≠ Config.palette 0)) ||
      decide ((Framebuffer.write [] 10 20 (Config.palette 3)).cellAt (cellIndex 11 20) ≠ Config.palette 0))
      true true true = _
    rw [clear]
    simp [czon]

/-- V2.5: the right pixel at column 320 is dropped, and does not land on column 0 of another row. -/
theorem test_drw_clips :
    ∃ t, step (beforeDrw 0x23 0x013F 0x00EF []) = .next t ∧
      t.fb = Framebuffer.write [] 319 239 (Config.palette 2) ∧ t.pc = 4 := ⟨_, rfl, rfl, rfl⟩

/-- V3.1, V3.4: an odd target is legal. -/
theorem test_jmp :
    step (before ⟨0x10, 0x00, 0x05, 0x00⟩ 0 0 0 0 someFlags) =
      .next { before ⟨0x10, 0x00, 0x05, 0x00⟩ 0 0 0 0 someFlags with pc := 5 } := rfl

/-- V3.5, V3.6. -/
theorem test_jz :
    seen (before ⟨0x12, 0x00, 0x40, 0x00⟩ 0 0 0 0 (czon false true false false)) =
        some ([0, 0, 0, 0], czon false true false false, 0x0040) ∧
      seen (before ⟨0x12, 0x00, 0x40, 0x00⟩ 0 0 0 0 (czon true false false false)) =
        some ([0, 0, 0, 0], czon true false false false, 0x0004) := by decide

/-- V3.8, V3.9. -/
theorem test_jc :
    seen (before ⟨0x12, 0x09, 0x40, 0x00⟩ 0 0 0 0 (czon true false false false)) =
        some ([0, 0, 0, 0], czon true false false false, 0x0040) ∧
      seen (before ⟨0x12, 0x09, 0x40, 0x00⟩ 0 0 0 0 (czon false true false false)) =
        some ([0, 0, 0, 0], czon false true false false, 0x0004) := by decide

/-- E9's JME and V3.14. -/
theorem test_jme :
    seen (before ⟨0x13, 0x10, 0x10, 0x00⟩ 0x1234 0x1234 0 0 (czon false false false false)) =
        some ([0x1234, 0x1234, 0, 0], czon false false false false, 0x0010) ∧
      seen (before ⟨0x13, 0x10, 0x10, 0x00⟩ 0x1234 0x1235 0 0 (czon false false false false)) =
        some ([0x1234, 0x1235, 0, 0], czon false false false false, 0x0004) := by decide

/-- V4.3: the high nibble of the operand byte is ignored. -/
theorem test_ldi :
    seen (before ⟨0x20, 0xA3, 0x00, 0x80⟩ 0 0 0 0 (czon true true true true)) =
      some ([0, 0, 0, 0x8000], czon true true true true, 4) := by decide

/-- V4.6: the destination is the low nibble. -/
theorem test_mov :
    seen (before ⟨0x24, 0x10, 0xFF, 0xFF⟩ 9 1 0 0 (czon true true true true)) =
      some ([1, 1, 0, 0], czon true true true true, 4) := by decide

/-- E2, V5.1: the sum wraps to the least number and overflows. -/
theorem test_add_wraps :
    seen (before ⟨0x41, 0x10, 0x00, 0x00⟩ 0x7FFF 0x0001 0 0 (czon false false false false)) =
      some ([0x8000, 0x0001, 0, 0], czon true false true true, 4) := by decide

/-- V5: ADD R3, R3 reads both operands before it writes. -/
theorem test_add_same_register :
    seen (before ⟨0x41, 0x33, 0x00, 0x00⟩ 0 0 0 0x8000 (czon false false false false)) =
      some ([0, 0, 0, 0], czon true true true false, 4) := by decide

/-- E3: `5 - 10` sets Carry. -/
theorem test_subi :
    seen (before ⟨0x50, 0x00, 0x0A, 0x00⟩ 0x0005 0 0 0 (czon false false false false)) =
      some ([0xFFFB, 0, 0, 0], czon true false false true, 4) := by decide

/-- V6.6: a signed comparison, not a borrow. -/
theorem test_subi_carry_is_signed :
    seen (before ⟨0x50, 0x00, 0xFF, 0xFF⟩ 0x7FFF 0 0 0 (czon true true false false)) =
      some ([0x8000, 0, 0, 0], czon false false true true, 4) := by decide

/-- E4: SUB R1, R2. -/
theorem test_sub :
    seen (before ⟨0x51, 0x21, 0x00, 0x00⟩ 0 0x0003 0x000A 0 (czon false false false false)) =
      some ([0, 0xFFF9, 0x000A, 0], czon true false false true, 4) := by decide

/-- V6.5, on SUB. -/
theorem test_sub_overflows :
    seen (before ⟨0x51, 0x10, 0x00, 0x00⟩ 0x8000 0x0001 0 0 (czon false false false false)) =
      some ([0x7FFF, 0x0001, 0, 0], czon true false true false, 4) := by decide

/-- E4: SUB3 R1, R2, R3 leaves its sources. -/
theorem test_sub3 :
    seen (before ⟨0x52, 0x21, 0x03, 0x00⟩ 0 0x0003 0x000A 0 (czon false false false false)) =
      some ([0, 0x0003, 0x000A, 0xFFF9], czon true false false true, 4) := by decide

/-- V6.22: the destination is the subtrahend's register. -/
theorem test_sub3_into_source :
    seen (before ⟨0x52, 0x21, 0x02, 0x00⟩ 0 0x000A 0x0003 0 (czon false false false false)) =
      some ([0, 0x000A, 0x0007, 0], czon false false false false, 4) := by decide

/-! Faults, fetch, load -/

/-- V7.1 on the reset state, P5a: an empty memory is no instruction, and the core then has no step. -/
theorem test_zero_word_faults :
    ∃ t r, step State.reset = .next t ∧ t.fault = some r ∧ r.cause = .unrecognizedOpcode 0 ∧ r.addr = 0 ∧
      r.bytes = [0, 0, 0, 0] ∧ t.pc = 4 ∧ step t = .fault (.halted r) := ⟨_, _, rfl, rfl, rfl, rfl, rfl, rfl, rfl⟩

/-- V3.11: `bad` is the selector. -/
theorem test_selector_faults :
    step (before ⟨0x12, 0x01, 0x40, 0x00⟩ 0 0 0 0 someFlags) =
      .next { before ⟨0x12, 0x01, 0x40, 0x00⟩ 0 0 0 0 someFlags with
        pc := 4
        fault := some ⟨.unrecognizedCondition 1, 0, [0x12, 0x01, 0x40, 0x00]⟩ } := rfl

/-- V7.5, V7.6: the fetch raises before anything changes. -/
theorem test_fetch_faults :
    step { State.reset with pc := 0xFFFC } =
        .next { State.reset with
          pc := 0xFFFC, fault := some ⟨.memoryBounds 0xFFFF, 0xFFFC, [0, 0, 0]⟩ } ∧
      step { State.reset with pc := 0xFFFF } =
        .next { State.reset with
          pc := 0xFFFF, fault := some ⟨.memoryBounds 0xFFFF, 0xFFFF, []⟩ } := ⟨rfl, rfl⟩

/-- V7.7: the last instruction slot, through the host's placement of a word. -/
theorem test_last_slot :
    ∃ t, step (State.withFetchWord { State.reset with pc := 0xFFFB } 32 0x10000000) = .next t ∧ t.pc = 0 :=
  ⟨_, rfl, rfl⟩

/-- A placed word runs as the first instruction after reset. -/
theorem test_withFetchWord :
    ∃ t, step (State.reset.withFetchWord 32 0x20003412) = .next t ∧ t.readReg 0 = 0x1234 ∧ t.fault = none :=
  ⟨_, rfl, rfl, rfl⟩

/-- The stop of the host. -/
theorem test_stopped : step { State.reset with stopped := true } = .fault .stoppedByHost := rfl

/-- P1: the cartridge file of the document's end-to-end example. -/
def p1 : List Byte :=
  [0x43, 0x48, 0x31, 0x36, 0x00, 0x00, 0x0C, 0x00, 0x00, 0x00, 0x00, 0x00, 0x00, 0x00, 0x00, 0x00,
   0x20, 0x00, 0x34, 0x12, 0x20, 0x01, 0x34, 0x12, 0x13, 0x10, 0x10, 0x00]

/-- P1 loads and its first cycle loads R0. -/
theorem test_load_p1 :
    ∃ s t, loadCartridge p1 = .next s ∧ step s = .next t ∧ t.readReg 0 = 0x1234 ∧ t.pc = 4 :=
  ⟨_, _, rfl, rfl, rfl, rfl⟩

/-- A file cut short starts no run (50_agents_and_interfaces.md rule R243). -/
theorem test_load_truncated : loadCartridge (p1.take 27) = .refused .cartridgeTruncated := rfl

/-- Reset's memory has the canonical form. -/
theorem test_reset_memory_wf : State.reset.mem.wf = true := rfl

/-! Witnesses: states and operands that meet the hypotheses of the obligations -/

/-- A state that can step, with a JMP to 0x0005 at address 0. -/
def jumper : State := before ⟨0x10, 0x00, 0x05, 0x00⟩ 0 0 0 0 (czon false false false false)

theorem jumper_canStep : CanStep jumper := ⟨rfl, rfl⟩

theorem jumper_bytes : BytesAtPc jumper 0x10 0x00 0x05 0x00 := ⟨rfl, rfl, rfl, rfl⟩

theorem jumper_step : step jumper = .next { jumper with pc := 5 } := rfl

theorem jumper_inv : Inv jumper where
  mem := rfl
  fb := rfl
  latch := fun _ h => (nomatch h)
  pc := fun _ h => (nomatch h)

/-- A state whose first step raises. -/
def faulter : State := before ⟨0xFF, 0x00, 0x00, 0x00⟩ 0 0 0 0 (czon false false false false)

/-- The record of that raise. -/
def faulterRecord : FaultRecord := ⟨.unrecognizedOpcode 0xFF, 0, [0xFF, 0, 0, 0]⟩

theorem faulter_step : step faulter = .next { faulter with pc := 4, fault := some faulterRecord } := rfl

theorem witness_DecodedInstructionKeepsTheUsedBits : decode ⟨0x03, 0xFF, 0xA7, 0xFF⟩ = .ok (.bgc 7) := rfl

theorem witness_DecoderAcceptsExactlyTheTable :
    ∃ row ∈ opcodeTable, row.selects ⟨0x12, 0x39, 0x40, 0x00⟩ = true := by decide

theorem witness_IgnoredBitsNeverMatter :
    ∃ row ∈ opcodeTable, row.selects ⟨0x12, 0x39, 0x40, 0x00⟩ = true ∧
      row.sameUsedBits ⟨0x12, 0x39, 0x40, 0x00⟩ ⟨0x12, 0xF9, 0x40, 0x00⟩ = true := by decide

theorem witness_StepRunsTheDecodedInstruction :
    CanStep jumper ∧ BytesAtPc jumper 0x10 0x00 0x05 0x00 ∧ decode ⟨0x10, 0x00, 0x05, 0x00⟩ = .ok (.jmp 5) :=
  ⟨jumper_canStep, jumper_bytes, rfl⟩

/-- Both clauses at their bounds: 0xFFFC, 0xFFFF, and 0xFFFB below. -/
theorem witness_FetchRaisesExactlyFromFFFC :
    (∀ p : Word, CanStep { jumper with pc := p }) ∧ 0xFFFC ≤ uval 0xFFFC ∧ 0xFFFC ≤ uval 0xFFFF ∧
      uval 0xFFFB < 0xFFFC := ⟨fun _ => ⟨rfl, rfl⟩, by decide⟩

theorem witness_UnrecognizedWordRaisesAfterTheAdvance :
    (CanStep faulter ∧ BytesAtPc faulter 0xFF 0 0 0 ∧ (0xFF : Byte) ∉ legalOpcodes) ∧
      CanStep (before ⟨0x12, 0x01, 0, 0⟩ 0 0 0 0 (czon true true true true)) ∧
      BytesAtPc (before ⟨0x12, 0x01, 0, 0⟩ 0 0 0 0 (czon true true true true)) 0x12 0x01 0 0 ∧
      lowNibble 0x01 ≠ 0 ∧ lowNibble 0x01 ≠ 9 :=
  ⟨⟨⟨rfl, rfl⟩, ⟨rfl, rfl, rfl, rfl⟩, by decide⟩, ⟨rfl, rfl⟩, ⟨rfl, rfl, rfl, rfl⟩, by decide, by decide⟩

theorem witness_RaiseIsPrecise :
    CanStep faulter ∧ ∃ t, step faulter = .next t ∧ t.fault = some faulterRecord :=
  ⟨⟨rfl, rfl⟩, _, faulter_step, rfl⟩

theorem witness_OnlyDrawRaisesInItsBody : ∀ x y imm, Instr.cls ≠ .drw x y imm := fun _ _ _ h => (nomatch h)

theorem witness_ClsFillsTheScreenWithTransparent :
    inRange 0 0 = true ∧ inRange 319 239 = true ∧ inRange 320 0 = false ∧ inRange (-1) 0 = false := by decide

theorem witness_VblnkClearsTheLatchOrRewinds :
    jumper.vblank = false ∧ jumper.setLatch.vblank = true := ⟨rfl, rfl⟩

/-- At the last address from which an instruction can be fetched. -/
def waiter : State := State.withFetchWord { jumper with pc := 0xFFFB } 32 0x02778899

theorem waiter_bytes : BytesAtPc waiter 0x02 0x77 0x88 0x99 := ⟨rfl, rfl, rfl, rfl⟩

theorem witness_VblnkWaitLeavesTheWholeState :
    CanStep waiter ∧ BytesAtPc waiter 0x02 0x77 0x88 0x99 ∧ waiter.vblank = false :=
  ⟨⟨rfl, rfl⟩, waiter_bytes, rfl⟩

theorem witness_SprSetsTheDimensionsUntilTheNextSpr :
    (∀ w h, Instr.cls ≠ .spr w h) ∧ ∃ t, exec .cls jumper = .next t := ⟨fun _ _ h => (nomatch h), _, rfl⟩

/-- A sprite of one byte at 0xFFFE, the last byte of memory. -/
def drawer : State := { jumper with spritew := 1, spriteh := 1 }

/-- Both alternatives at their bounds: no bytes at all, and the last byte of memory. -/
theorem witness_DrwPaintsExactlyTheSprite :
    (jumper.fb.wf = true ∧ jumper.spritew.toNat * jumper.spriteh.toNat = 0) ∧ drawer.fb.wf = true ∧
      uval 0xFFFE + drawer.spritew.toNat * drawer.spriteh.toNat ≤ 65535 := by decide

/-- A sprite that collides: its byte `30` lands on a cell that differs from the background colour. -/
theorem witness_DrwCarryReportsTheCollision :
    let s : State := { drawer with fb := [(0, Config.palette 0 + 1)], mem := [(0x0100, 0x30)] }
    s.fb.wf = true ∧ uval 0x0100 + s.spritew.toNat * s.spriteh.toNat ≤ 65535 ∧
      spriteIndex s 0 0 0x0100 0 0 ≠ 0 ∧ s.fb.read 0 0 ≠ some (Config.palette s.bg) := by
  have other : Config.palette 0 + 1 ≠ Config.palette 0 := by simp
  refine ⟨?_, (by decide : 256 + 1 * 1 ≤ 65535), (by decide : (3 : Nibble) ≠ 0),
    fun h => other (Option.some.inj h)⟩
  exact Sparse.wfFrom_cons.mpr ⟨Nat.le_refl 0, by decide, other, rfl⟩

/-- V2.21. -/
theorem witness_DrwOutOfBoundsRaisesWithNoEffect :
    let s : State := { drawer with spritew := 2 }
    0 < s.spritew.toNat * s.spriteh.toNat ∧ 65535 < uval 0xFFFE + s.spritew.toNat * s.spriteh.toNat := by
  decide

theorem witness_PixelOrderIsUnobservable :
    jumper.fb.wf = true ∧
      (spritePixels 2 2 0 0 [1, 2, 3, 4]).reverse.Perm (spritePixels 2 2 0 0 [1, 2, 3, 4]) :=
  ⟨rfl, List.reverse_perm _⟩

theorem witness_TransparentPixelsDoNothing :
    (SpritePixel.mk 0 0 0).idx = 0 ∧
      uval 0x0100 + drawer.spritew.toNat * drawer.spriteh.toNat ≤ 65535 ∧
      ∀ k, k < drawer.spritew.toNat * drawer.spriteh.toNat → drawer.mem.byteAt (uval 0x0100 + k) = 0 := by
  decide

theorem witness_JmpSetsPcToAnyTarget : CanStep jumper ∧ 0xFFFC ≤ uval 0xFFFC := ⟨jumper_canStep, by decide⟩

/-- A register equals itself, R0 equals R1, and a loaded R1 does not. -/
theorem witness_JmeJumpsExactlyOnEqualRegisters :
    sval (jumper.readReg 0) = sval (jumper.readReg 1) ∧
      sval ((jumper.writeReg 1 0x8000).readReg 0) ≠ sval ((jumper.writeReg 1 0x8000).readReg 1) := by
  decide

theorem witness_ZeroAndNegativeFollowTheResult :
    isArithmetic (.sub3 0 1 2) = true ∧ destReg (.sub3 0 1 2) = some 2 ∧
      ∃ t, exec (.sub3 0 1 2) jumper = .next t := ⟨rfl, rfl, _, rfl⟩

theorem witness_ArithmeticKeepsNoEarlierFlag : isArithmetic (.add 0 1) = true := rfl

/-- Each of the three forms. -/
theorem witness_SubtractionsWriteTheWrappedDifferenceAndFlags :
    (∃ x imm, Instr.subi 1 5 = .subi x imm ∧ (1 : Reg) = x ∧ (0 : Word) = jumper.readReg x ∧
        (5 : Word) = imm) ∧
      (∃ x y, Instr.sub 1 2 = .sub x y ∧ (1 : Reg) = x ∧ (0 : Word) = jumper.readReg x ∧
        (0 : Word) = jumper.readReg y) ∧
      ∃ x y z, Instr.sub3 1 2 1 = .sub3 x y z ∧ (1 : Reg) = z ∧ (0 : Word) = jumper.readReg x ∧
        (0 : Word) = jumper.readReg y :=
  ⟨⟨1, 5, rfl, rfl, rfl, rfl⟩, ⟨1, 2, rfl, rfl, rfl, rfl⟩, ⟨1, 2, 1, rfl, rfl, rfl, rfl⟩⟩

theorem witness_SubtractionVariantsAgree : (3 : Reg) ≠ 1 ∧ (3 : Reg) ≠ 2 := by decide

theorem witness_SubCarryIsTheBorrowIfSignsAgree :
    (0x7FFF : Word).msb = (0x0000 : Word).msb ∧ (0x7FFF : Word).msb ≠ (0x8000 : Word).msb := by decide

/-- Each clause: an instruction that is not arithmetic, one that is, a DRW that completes, flags that agree on
what the jump reads, and an instruction that is no conditional jump. -/
theorem witness_FlagWritersAndReaders :
    (exec (.jmp 5) jumper = .next { jumper with pc := 5 } ∧ isArithmetic (.jmp 5) = false ∧
        ∀ x y imm, Instr.jmp 5 ≠ .drw x y imm) ∧
      isArithmetic (.sub 0 1) = true ∧
      (∃ t, exec (.drw 0 1 0xFFFF) jumper = .next t ∧ t.fault = jumper.fault ∧ jumper.fault = none) ∧
      (czon true false true true).z = jumper.flags.z ∧ (czon false true true true).c = jumper.flags.c ∧
      (∀ imm, Instr.cls ≠ .jz imm) ∧ (∀ imm, Instr.cls ≠ .jc imm) ∧ ∃ t, exec .cls jumper = .next t :=
  ⟨⟨rfl, rfl, fun _ _ _ h => (nomatch h)⟩, rfl, ⟨_, rfl, rfl, rfl⟩, rfl, rfl, fun _ h => (nomatch h),
    fun _ h => (nomatch h), _, rfl⟩

/-- The body clause of PcAfterEveryCycle where the body raises: V2.21's DRW at two values of `pc`. -/
theorem witness_PcAfterEveryCycle_raise :
    let s : State := { drawer with spritew := 2 }
    (∃ t r, exec (.drw 0 1 0xFFFE) s = .next t ∧ t.fault = some r ∧ r.addr = 0xFFFC) ∧
      ∃ t r, exec (.drw 0 1 0xFFFE) { s with pc := 8 } = .next t ∧ t.fault = some r ∧ r.addr = 4 :=
  ⟨⟨_, _, rfl, rfl, rfl⟩, _, _, rfl, rfl, rfl⟩

theorem witness_RegistersChangeOnlyAsDestinations :
    ∃ t, step (before ⟨0x20, 0xA3, 0x00, 0x80⟩ 0 0 0 0 (czon true true true true)) = .next t ∧
      t.readReg 3 ≠ (before ⟨0x20, 0xA3, 0x00, 0x80⟩ 0 0 0 0 (czon true true true true)).readReg 3 :=
  ⟨_, rfl, by decide⟩

/-- The last address that has a byte, and the one that has none. -/
theorem witness_MemoryReadAfterWrite :
    Memory.wf [(0xFFFE, 1)] = true ∧ (0xFFFE : Word) ≠ 0xFFFF := by decide

theorem witness_FramebufferReadAfterWrite :
    jumper.fb.wf = true ∧ inRange 319 239 = true ∧ inRange 320 239 = false ∧ inRange 0 (-1) = false := by
  decide

theorem witness_FetchSeesTheStoredWord :
    CanStep waiter ∧ waiter.mem.wf = true ∧ uval waiter.pc < 0xFFFC := ⟨⟨rfl, rfl⟩, rfl, by decide⟩

/-- A step that completes, and one that raises. -/
theorem witness_StepKeepsTheInvariant :
    (Inv jumper ∧ step jumper = .next { jumper with pc := 5 }) ∧ Inv faulter ∧ ∃ t, step faulter = .next t :=
  ⟨⟨jumper_inv, jumper_step⟩,
    { mem := rfl, fb := rfl, latch := fun _ h => (nomatch h), pc := fun _ h => (nomatch h) }, _, faulter_step⟩

/-- Each clause: an instruction, bytes that are none, and an address from which no four bytes exist. -/
theorem witness_PcAfterEveryCycle :
    (step jumper = .next { jumper with pc := 5 } ∧ BytesAtPc jumper 0x10 0x00 0x05 0x00 ∧
        decode ⟨0x10, 0x00, 0x05, 0x00⟩ = .ok (.jmp 5)) ∧
      ((∃ t, step faulter = .next t) ∧ BytesAtPc faulter 0xFF 0 0 0 ∧
        decode ⟨0xFF, 0, 0, 0⟩ = .error (.unrecognizedOpcode 0xFF)) ∧
      (∃ t, step { jumper with pc := 0xFFFF } = .next t) ∧
      ¬∃ b0 b1 b2 b3, BytesAtPc { jumper with pc := 0xFFFF } b0 b1 b2 b3 :=
  ⟨⟨jumper_step, jumper_bytes, rfl⟩, ⟨⟨_, faulter_step⟩, ⟨rfl, rfl, rfl, rfl⟩, rfl⟩, ⟨_, rfl⟩,
    fun ⟨_, _, _, _, h, _⟩ => (nomatch h)⟩

/-- A step that changes the framebuffer: CLS over a cell that holds another colour. -/
theorem witness_StoresAreOnlyToTheFramebuffer :
    let s : State := { before ⟨0x01, 0, 0, 0⟩ 0 0 0 0 (czon false false false false) with
      fb := [(0, Config.palette 0 + 1)] }
    ∃ t, step s = .next t ∧ t.fb ≠ s.fb := by
  have cleared : Framebuffer.filled (Config.palette 0) = [] := if_pos rfl
  exact ⟨_, rfl, fun h => List.cons_ne_nil _ _ (Eq.trans (Eq.symm h) cleared)⟩

theorem witness_UnreadStateNeverMatters :
    AgreeOnRead jumper { jumper with sp := 7, fg := 3, flags := czon false false true true } ∧
      step jumper = .next { jumper with pc := 5 } := ⟨rfl, jumper_step⟩

/-- A JMP to itself at the last address from which an instruction can be fetched. -/
theorem witness_JumpToItselfRestsForEver :
    let s := State.withFetchWord { jumper with pc := 0xFFFB } 32 0x1000FBFF
    CanStep s ∧ BytesAtPc s 0x10 0x00 (lowByte s.pc) (highByte s.pc) :=
  ⟨⟨rfl, rfl⟩, rfl, rfl, rfl, rfl⟩

theorem witness_EveryRunFromALaunchMeetsTheInvariant :
    ∃ s t, launch [0x20, 0x00, 0x34, 0x12] 0 = .next s ∧ Reaches s t ∧ t.readReg 0 = 0x1234 :=
  ⟨_, _, rfl, .step (.refl _) rfl, rfl⟩

/-- The system around the waiting VBLNK, in the middle of a tick. -/
def waiting : System := { machine := waiter, phase := .presented, shown := none }

/-- Both directions of the latch, and a body that is not VBLNK's. -/
theorem witness_WhoSetsClearsAndReadsTheLatch :
    (waiting.machine.vblank = false ∧
        System.next .setLatch waiting =
          some { machine := { waiter with vblank := true }, phase := .idle, shown := none }) ∧
      (∃ y', System.next .cycle { waiting with machine := waiter.setLatch } = some y' ∧
        y'.machine.vblank = false) ∧
      Instr.jmp 5 ≠ .vblnk ∧ exec (.jmp 5) jumper = .next { jumper with pc := 5 } :=
  ⟨⟨rfl, rfl⟩, ⟨_, rfl, rfl⟩, fun h => (nomatch h), rfl⟩

theorem witness_DisplayStepsTouchOnlyTheLatch :
    (∃ y', System.next .present (System.start jumper) = some y') ∧
      ∃ y', System.next .setLatch waiting = some y' := ⟨⟨_, rfl⟩, _, rfl⟩

theorem witness_VblnkPassesAfterTheNextTick :
    CanStep (System.start waiter).machine ∧ (System.start waiter).phase = .idle ∧
      (System.start waiter).machine.vblank = false ∧
      BytesAtPc (System.start waiter).machine 0x02 0x77 0x88 0x99 :=
  ⟨⟨rfl, rfl⟩, rfl, rfl, waiter_bytes⟩

theorem witness_EveryScheduleKeepsTheProgram :
    Inv (System.start jumper).machine ∧
      ∃ y', System.run [.cycle, .present, .setLatch, .stop] (System.start jumper) = some y' :=
  ⟨jumper_inv, _, rfl⟩

theorem witness_FaultLatchIsFinal :
    let y := System.start { faulter with fault := some faulterRecord }
    y.machine.fault ≠ none ∧ ∃ y', System.run [.present, .setLatch, .stop] y = some y' :=
  ⟨fun h => (nomatch h), _, rfl⟩

theorem witness_StopFreezesTheSystem :
    ∃ y', System.next .stop (System.start jumper) = some y' ∧ y'.machine.stopped = true := ⟨_, rfl, rfl⟩

/-- P1's header; a payload of exactly the declared size, one that is a byte short, and one with a byte after it. -/
theorem witness_LoadPlacesThePayloadAtZero :
    [0x43, 0x48, 0x31, (0x36 : Byte)].length = 4 ∧ [0, 0, 0, (0 : Byte)].length = 4 ∧
      12 = (0x0C : Byte).toNat + 256 * (0 : Byte).toNat + 65536 * (0 : Byte).toNat +
        16777216 * (0 : Byte).toNat ∧
      p1 = [0x43, 0x48, 0x31, 0x36] ++ [0, 0, 0x0C, 0, 0, 0, 0, 0] ++ [0, 0, 0, 0] ++ p1.drop 16 ∧
      12 ≤ (p1.drop 16).length ∧ 12 ≤ Config.memSize ∧ ((p1.take 27).drop 16).length < 12 ∧
      12 ≤ ((p1 ++ [0xFF]).drop 16).length ∧ (p1.take 15).length < 16 := by decide

/-- A declared size of 65,536, one more than memory holds, over a file that has those bytes. -/
theorem witness_LoadRefusesALongPayload :
    65536 = (0 : Byte).toNat + 256 * (0 : Byte).toNat + 65536 * (1 : Byte).toNat +
        16777216 * (0 : Byte).toNat ∧
      65536 ≤ (List.replicate 65536 (0 : Byte)).length ∧ Config.memSize < 65536 := by
  rw [List.length_replicate]
  exact ⟨rfl, Nat.le_refl 65536, Nat.lt_succ_self 65535⟩

/-- Both clauses at their bound. -/
theorem witness_LaunchStateIsResetWithTheImage :
    (List.replicate 65535 (0 : Byte)).length ≤ Config.memSize ∧
      Config.memSize < (List.replicate 65536 (0 : Byte)).length := by
  rw [List.length_replicate, List.length_replicate]
  exact ⟨Nat.le_refl 65535, Nat.lt_succ_self 65535⟩

theorem witness_ResetValues : (0xFFFE : Word) ≠ 0xFFFF ∧ inRange 319 239 = true := by decide

end Sys2Proof.Tests
end

section
/-! The bodies, the fetch and the events, each said once: an equation or an inversion lemma per operation of the
model, from which the statements about the state are assembled. -/

namespace Sys2Proof.Machine

variable {s t : State}

/-! ### The fetch and the decoder -/

/-- The bytes at `pc` are those that the fetch answers (40_cycle.md rule R112). -/
theorem bytesAtPc_iff_fetch {b0 b1 b2 b3 : Byte} :
    BytesAtPc s b0 b1 b2 b3 ↔ s.mem.fetch s.pc = .ok ⟨b0, b1, b2, b3⟩ := by
  constructor
  · rintro ⟨h0, h1, h2, h3⟩
    exact Memory.fetch_of_read h0 h1 h2 h3
  · exact Memory.read_of_fetch

/-- The two ways to be no instruction (30_encoding.md rules R96, R97). -/
theorem decode_eq_error {r : RawInstr} {e : DecodeError} (h : decode r = .error e) :
    (e = .unrecognizedOpcode r.b0 ∧ r.b0 ∉ legalOpcodes) ∨
      (e = .unrecognizedCondition r.x ∧ r.b0 = 0x12 ∧ r.x ≠ 0x0 ∧ r.x ≠ 0x9) := by
  revert h
  refine decode_rows (P := fun d => d = .error e → _) r ?_ ?_ ?_ ?_ ?_ ?_ ?jcc ?_ ?_ ?_ ?_ ?_ ?_ ?_ ?illegal
  case jcc =>
    intro hb h
    obtain ⟨-, hj⟩ | ⟨-, hj⟩ | ⟨h0, h9, hj⟩ := decodeJcc_cases r <;> rw [hj] at h <;> cases h
    exact .inr ⟨rfl, hb, h0, h9⟩
  case illegal =>
    intro hb h
    cases h
    exact .inl ⟨rfl, hb⟩
  all_goals exact fun _ h => nomatch h

/-- Only opcode 0x02 is VBLNK. -/
theorem opcode_of_decode_vblnk {r : RawInstr} (h : decode r = .ok .vblnk) : r.b0 = 0x02 := by
  revert h
  refine decode_rows (P := fun d => d = .ok .vblnk → _) r ?_ ?vblnk ?_ ?_ ?_ ?_ ?jcc ?_ ?_ ?_ ?_ ?_ ?_ ?_ ?_
  case vblnk => exact fun hb _ => hb
  case jcc =>
    intro _ h
    obtain ⟨-, hj⟩ | ⟨-, hj⟩ | ⟨-, -, hj⟩ := decodeJcc_cases r <;> rw [hj] at h <;> cases h
  all_goals exact fun _ h => nomatch h

/-! ### The bodies -/

theorem State.jumpIf_eq (b : Bool) (a : Word) : s.jumpIf b a = { s with pc := if b then a else s.pc } := by
  cases b <;> rfl

@[simp] theorem exec_cls :
    exec .cls s = .next { s with fg := 0, bg := 0, fb := Framebuffer.filled (Config.palette 0) } := rfl

/-- Waiting and completing in one equation: a clear latch stays clear, a set one is cleared. -/
@[simp] theorem exec_vblnk :
    exec .vblnk s = .next { s with pc := if s.vblank then s.pc else s.pc - 4, vblank := false } := by
  cases h : s.vblank <;> simp [exec, execVblnk, State.rewind, h]

@[simp] theorem exec_bgc (n : Nibble) : exec (.bgc n) s = .next { s with bg := n } := rfl

@[simp] theorem exec_spr (w h : Byte) : exec (.spr w h) s = .next { s with spritew := w, spriteh := h } := rfl

@[simp] theorem exec_jmp (imm : Word) : exec (.jmp imm) s = .next { s with pc := imm } := rfl

@[simp] theorem exec_jz (imm : Word) :
    exec (.jz imm) s = .next { s with pc := if s.flags.z then imm else s.pc } :=
  congrArg _ (State.jumpIf_eq _ _)

@[simp] theorem exec_jc (imm : Word) :
    exec (.jc imm) s = .next { s with pc := if s.flags.c then imm else s.pc } :=
  congrArg _ (State.jumpIf_eq _ _)

@[simp] theorem exec_jme (x y : Reg) (imm : Word) :
    exec (.jme x y imm) s =
      .next { s with pc := if s.readReg x = s.readReg y then imm else s.pc } := by
  simp [exec, execJme, State.jumpIf_eq]

@[simp] theorem exec_ldi (x : Reg) (imm : Word) : exec (.ldi x imm) s = .next (s.writeReg x imm) := rfl

@[simp] theorem exec_mov (x y : Reg) : exec (.mov x y) s = .next (s.writeReg x (s.readReg y)) := rfl

@[simp] theorem exec_add (x y : Reg) :
    exec (.add x y) s = .next (s.writeResult x (addflags (s.readReg x) (s.readReg y))) := rfl

@[simp] theorem exec_subi (x : Reg) (imm : Word) :
    exec (.subi x imm) s = .next (s.writeResult x (subflags (s.readReg x) imm)) := rfl

@[simp] theorem exec_sub (x y : Reg) :
    exec (.sub x y) s = .next (s.writeResult x (subflags (s.readReg x) (s.readReg y))) := rfl

@[simp] theorem exec_sub3 (x y z : Reg) :
    exec (.sub3 x y z) s = .next (s.writeResult z (subflags (s.readReg x) (s.readReg y))) := rfl

/-- What a DRW that completes leaves, drawn from the source bytes `data` (42_draw.md rules R150, R163). -/
def State.draw (s : State) (x y : Reg) (data : List Byte) : State :=
  let drawn := rasterize data s.spritew.toNat s.spriteh.toNat (s.readCoord x) (s.readCoord y) s.bg s.fb
  { s with fb := drawn.1, flags := { s.flags with c := drawn.2 } }

/-- What a DRW leaves whose source has no byte at `bad` (rule R164). -/
def State.raiseDraw (s : State) (x y : Reg) (imm bad : Word) : State :=
  s.raise s.bodyAddr (encode (.drw x y imm)).toList (.memoryBounds bad)

section Drw

variable {x y : Reg} {imm bad : Word} {data : List Byte}

theorem exec_drw_of_ok (h : s.mem.readRun imm s.spriteBytes = .ok data) :
    exec (.drw x y imm) s = .next (s.draw x y data) := by
  simp only [exec, execDrw, h, State.draw]

theorem exec_drw_of_error (h : s.mem.readRun imm s.spriteBytes = .error bad) :
    exec (.drw x y imm) s = .next (s.raiseDraw x y imm bad) := by
  simp only [exec, execDrw, h, State.raiseDraw]

/-- DRW raises or draws, as its source bytes exist or not. -/
theorem exec_drw_cases (h : exec (.drw x y imm) s = .next t) :
    (∃ bad, s.mem.readRun imm s.spriteBytes = .error bad ∧ t = s.raiseDraw x y imm bad) ∨
      ∃ data, s.mem.readRun imm s.spriteBytes = .ok data ∧ t = s.draw x y data := by
  cases hr : s.mem.readRun imm s.spriteBytes with
  | error bad => rw [exec_drw_of_error hr] at h; cases h; exact .inl ⟨bad, rfl, rfl⟩
  | ok data => rw [exec_drw_of_ok hr] at h; cases h; exact .inr ⟨data, rfl, rfl⟩

end Drw

/-! ### What a body writes, field by field -/

/-- A body writes no general register but its destination (10_state.md rule R22). -/
theorem exec_readReg {i : Instr} {j : Reg} (h : exec i s = .next t) (hj : destReg i ≠ some j) :
    t.readReg j = s.readReg j := by
  cases i with
  | drw x y imm => obtain ⟨_, -, rfl⟩ | ⟨_, -, rfl⟩ := exec_drw_cases h <;> rfl
  | cls | vblnk | bgc | spr | jmp | jz | jc | jme => simp at h; subst h; rfl
  | ldi | mov | add | subi | sub | sub3 => simp at h; subst h; simp_all [destReg, eq_comm]

/-- Only CLS and DRW write the framebuffer (rule R33). -/
theorem exec_fb {i : Instr} (h : exec i s = .next t) (hfb : t.fb ≠ s.fb) :
    i = .cls ∨ ∃ x y imm, i = .drw x y imm := by
  cases i with
  | cls => exact .inl rfl
  | drw x y imm => exact .inr ⟨x, y, imm, rfl⟩
  | _ => simp at h; subst h; exact absurd rfl hfb

/-- Only VBLNK writes the latch (rule R31). -/
theorem exec_vblank {i : Instr} (h : exec i s = .next t) (hi : i ≠ .vblnk) : t.vblank = s.vblank := by
  cases i with
  | vblnk => exact absurd rfl hi
  | drw x y imm => obtain ⟨_, -, rfl⟩ | ⟨_, -, rfl⟩ := exec_drw_cases h <;> rfl
  | _ => simp at h; subst h; rfl

/-- No body sets the latch. -/
theorem exec_vblank_of_clear {i : Instr} (h : exec i s = .next t) (hs : s.vblank = false) :
    t.vblank = false := by
  by_cases hi : i = .vblnk
  · subst hi; cases exec_vblnk.symm.trans h; rfl
  · rw [exec_vblank h hi, hs]

/-- `pc` after a body that ran after the advance (rule R24). -/
theorem exec_advance_pc {i : Instr} (h : exec i s.advance = .next t) : t.pc = pcAfter i s := by
  cases i with
  | drw x y imm => obtain ⟨_, -, rfl⟩ | ⟨_, -, rfl⟩ := exec_drw_cases h <;> rfl
  | vblnk => cases exec_vblnk.symm.trans h; simp [pcAfter, addrAt]
  | _ => simp at h; subst h; rfl

/-- A body outside the arithmetic writes no flag but DRW's Carry (rules R27, R163). -/
theorem exec_flags {i : Instr} (h : exec i s = .next t) (hi : isArithmetic i = false) :
    t.flags.z = s.flags.z ∧ t.flags.o = s.flags.o ∧ t.flags.n = s.flags.n ∧
      ((∀ x y imm, i ≠ .drw x y imm) → t.flags.c = s.flags.c) := by
  cases i with
  | drw x y imm =>
    obtain ⟨_, -, rfl⟩ | ⟨_, -, rfl⟩ := exec_drw_cases h <;>
      exact ⟨rfl, rfl, rfl, fun hd => absurd rfl (hd x y imm)⟩
  | add | subi | sub | sub3 => cases hi
  | _ => simp at h; subst h; exact ⟨rfl, rfl, rfl, fun _ => rfl⟩

/-! ### What a body does not depend on -/

/-- An arithmetic body reads no flag and writes all four (45_arithmetic_flags.md rule R205). -/
theorem exec_setFlags_of_arithmetic {i : Instr} (s : State) (f : Flags) (hi : isArithmetic i = true) :
    exec i { s with flags := f } = exec i s := by
  cases i with
  | add | subi | sub | sub3 => rfl
  | _ => cases hi

/-- A DRW that completes reads no flag and loses the Carry before it. -/
theorem exec_drw_setCarry {x y : Reg} {imm : Word} (b : Bool) (h : exec (.drw x y imm) s = .next t)
    (ht : t.fault = none) :
    exec (.drw x y imm) { s with flags := { s.flags with c := b } } = .next t := by
  obtain ⟨_, -, rfl⟩ | ⟨_, hr, rfl⟩ := exec_drw_cases h
  · cases ht
  · exact exec_drw_of_ok hr

/-- Only JZ and JC read a flag. -/
theorem exec_setFlags {i : Instr} (f : Flags) (hz : ∀ imm, i ≠ .jz imm) (hc : ∀ imm, i ≠ .jc imm)
    (h : exec i s = .next t) : ∃ g, exec i { s with flags := f } = .next { t with flags := g } := by
  cases i with
  | jz imm => exact absurd rfl (hz imm)
  | jc imm => exact absurd rfl (hc imm)
  | drw x y imm =>
    obtain ⟨_, hr, rfl⟩ | ⟨_, hr, rfl⟩ := exec_drw_cases h
    · exact ⟨_, exec_drw_of_error hr⟩
    · exact ⟨_, exec_drw_of_ok hr⟩
  | vblnk => cases exec_vblnk.symm.trans h; exact ⟨f, exec_vblnk⟩
  | jme => cases (exec_jme _ _ _).symm.trans h; exact ⟨f, exec_jme _ _ _⟩
  | _ => cases h; exact ⟨_, rfl⟩

/-- A body but VBLNK's neither reads nor writes the latch. -/
theorem exec_setVblank {i : Instr} (b : Bool) (hi : i ≠ .vblnk) (h : exec i s = .next t) :
    exec i { s with vblank := b } = .next { t with vblank := b } := by
  cases i with
  | vblnk => exact absurd rfl hi
  | drw x y imm =>
    obtain ⟨_, hr, rfl⟩ | ⟨_, hr, rfl⟩ := exec_drw_cases h
    · exact exec_drw_of_error hr
    · exact exec_drw_of_ok hr
  | jz => cases (exec_jz _).symm.trans h; exact exec_jz _
  | jc => cases (exec_jc _).symm.trans h; exact exec_jc _
  | jme => cases (exec_jme _ _ _).symm.trans h; exact exec_jme _ _ _
  | _ => cases h; rfl

/-- `u` is what a body leaves that started at another `pc` than the one that left `t`: it differs at most in
`pc` and in the address of a record. -/
def SameButPc (t u : State) : Prop :=
  u = { t with pc := u.pc, fault := u.fault } ∧ (u.fault = none ↔ t.fault = none) ∧
    ∀ r r', t.fault = some r → u.fault = some r' → r' = { r with addr := r'.addr }

theorem SameButPc.of_sameFault {p : Word} : SameButPc t { t with pc := p } := by
  refine ⟨rfl, Iff.rfl, fun r r' h h' => ?_⟩
  cases h.symm.trans h'
  rfl

/-- A body reads `pc` at most to name itself in a record (rule R24). -/
theorem exec_setPc {i : Instr} (p : Word) (h : exec i s = .next t) :
    ∃ u, exec i { s with pc := p } = .next u ∧ SameButPc t u := by
  cases i with
  | drw x y imm =>
    obtain ⟨_, hr, rfl⟩ | ⟨_, hr, rfl⟩ := exec_drw_cases h
    · refine ⟨_, exec_drw_of_error hr, rfl, ?_, ?_⟩
      · simp [State.raiseDraw]
      · rintro _ _ ⟨⟩ ⟨⟩
        rfl
    · exact ⟨_, exec_drw_of_ok hr, SameButPc.of_sameFault⟩
  | vblnk => cases exec_vblnk.symm.trans h; exact ⟨_, exec_vblnk, .of_sameFault⟩
  | jz => cases (exec_jz _).symm.trans h; exact ⟨_, exec_jz _, .of_sameFault⟩
  | jc => cases (exec_jc _).symm.trans h; exact ⟨_, exec_jc _, .of_sameFault⟩
  | jme => cases (exec_jme _ _ _).symm.trans h; exact ⟨_, exec_jme _ _ _, .of_sameFault⟩
  | _ => cases h; exact ⟨_, rfl, .of_sameFault⟩

/-- No body reads `sp`, `fg`, Overflow or Negative (rules R25, R27, R29). -/
theorem exec_agreeOnRead {s' : State} {i : Instr} (ha : AgreeOnRead s s') (h : exec i s = .next t) :
    ∃ t', exec i s' = .next t' ∧ AgreeOnRead t t' := by
  obtain ⟨sp, fg, o, n, rfl⟩ : ∃ sp fg o n,
      s' = { s with sp := sp, fg := fg, flags := { s.flags with o := o, n := n } } := ⟨_, _, _, _, ha⟩
  cases i with
  | drw x y imm =>
    obtain ⟨_, hr, rfl⟩ | ⟨_, hr, rfl⟩ := exec_drw_cases h
    · exact ⟨_, exec_drw_of_error hr, rfl⟩
    · exact ⟨_, exec_drw_of_ok hr, rfl⟩
  | vblnk => cases exec_vblnk.symm.trans h; exact ⟨_, exec_vblnk, rfl⟩
  | jz => cases (exec_jz _).symm.trans h; exact ⟨_, exec_jz _, rfl⟩
  | jc => cases (exec_jc _).symm.trans h; exact ⟨_, exec_jc _, rfl⟩
  | jme => cases (exec_jme _ _ _).symm.trans h; exact ⟨_, exec_jme _ _ _, rfl⟩
  | _ => cases h; exact ⟨_, rfl, rfl⟩

end Sys2Proof.Machine
end

section
/-! The step, the events and the runs: what each can do, said once, and the invariant that all of them keep. -/

namespace Sys2Proof.Machine

variable {s t : State}

/-! ### The step -/

/-- `step` runs the body of `i`, which is what the bytes at `pc` decode to, and leaves `t`. -/
def StepRuns (s t : State) (b0 b1 b2 b3 : Byte) (i : Instr) : Prop :=
  BytesAtPc s b0 b1 b2 b3 ∧ decode ⟨b0, b1, b2, b3⟩ = .ok i ∧ exec i s.advance = .next t

/-- The three ways a step goes: the fetch raises, the decoding raises, or a body runs. -/
theorem step_cases (h : step s = .next t) :
    (∃ bs bad, s.mem.fetch s.pc = .error (bs, bad) ∧ t = s.raise s.pc bs (.memoryBounds bad)) ∨
      (∃ b0 b1 b2 b3 e, BytesAtPc s b0 b1 b2 b3 ∧ decode ⟨b0, b1, b2, b3⟩ = .error e ∧
        t = s.advance.raise s.pc [b0, b1, b2, b3] (causeOfDecodeError e)) ∨
      ∃ b0 b1 b2 b3 i, StepRuns s t b0 b1 b2 b3 i := by
  obtain hf | ⟨r, e, hr, hd, ht⟩ | ⟨r, i, hr, hd, hi⟩ := cycle_cases (step_next h).2
  · exact .inl hf
  · exact .inr (.inl ⟨_, _, _, _, e, bytesAtPc_iff_fetch.mpr hr, hd, ht⟩)
  · exact .inr (.inr ⟨_, _, _, _, i, bytesAtPc_iff_fetch.mpr hr, hd, hi⟩)

/-- The bytes at `pc` are one word, so they decode in one way. -/
theorem decode_unique {b0 b1 b2 b3 c0 c1 c2 c3 : Byte} {d d' : Except DecodeError Instr}
    (hb : BytesAtPc s b0 b1 b2 b3) (hd : decode ⟨b0, b1, b2, b3⟩ = d)
    (hc : BytesAtPc s c0 c1 c2 c3) (hd' : decode ⟨c0, c1, c2, c3⟩ = d') : d = d' := by
  rw [bytesAtPc_iff_fetch] at hb hc
  rw [← hd, ← hd', Except.ok.inj (hb.symm.trans hc)]

theorem step_of_fetch_error {bs : List Byte} {bad : Word} (hs : CanStep s)
    (h : s.mem.fetch s.pc = .error (bs, bad)) : step s = .next (s.raise s.pc bs (.memoryBounds bad)) := by
  rw [step_of_canStep hs, cycle, h]

theorem step_of_decode_error {b0 b1 b2 b3 : Byte} {e : DecodeError} (hs : CanStep s)
    (hb : BytesAtPc s b0 b1 b2 b3) (hd : decode ⟨b0, b1, b2, b3⟩ = .error e) :
    step s = .next (s.advance.raise s.pc [b0, b1, b2, b3] (causeOfDecodeError e)) := by
  simp only [step_of_canStep hs, cycle, bytesAtPc_iff_fetch.mp hb, dispatchRaw, hd, RawInstr.toList]

theorem step_of_decode {b0 b1 b2 b3 : Byte} {i : Instr} (hs : CanStep s) (hb : BytesAtPc s b0 b1 b2 b3)
    (hd : decode ⟨b0, b1, b2, b3⟩ = .ok i) : step s = exec i s.advance := by
  simp only [step_of_canStep hs, cycle, bytesAtPc_iff_fetch.mp hb, dispatchRaw, hd]

/-- What a step changes, other than `pc` and the fault latch, the body of an instruction changes. -/
theorem stepRuns_of_changed {α : Type} (f : State → α) (hf : ∀ s p r, f { s with pc := p, fault := r } = f s)
    (h : step s = .next t) (hne : f t ≠ f s) : ∃ b0 b1 b2 b3 i, StepRuns s t b0 b1 b2 b3 i := by
  obtain ⟨_, _, -, rfl⟩ | ⟨_, _, _, _, _, -, -, rfl⟩ | hi := step_cases h
  · exact absurd (hf s _ _) hne
  · exact absurd (hf s _ _) hne
  · exact hi

/-- No step writes memory, `sp` or the host's stop (10_state.md rules R25, R32). -/
theorem step_keeps (h : step s = .next t) : t.mem = s.mem ∧ t.sp = s.sp ∧ t.stopped = s.stopped := by
  obtain ⟨_, _, -, rfl⟩ | ⟨_, _, _, _, _, -, -, rfl⟩ | ⟨_, _, _, _, _, -, -, hi⟩ := step_cases h
  · exact ⟨rfl, rfl, rfl⟩
  · exact ⟨rfl, rfl, rfl⟩
  · exact exec_keeps (s := s.advance) hi

/-- A step changes the latch only from high to low, and only where it runs VBLNK (rule R31). -/
theorem step_vblank_changed (h : step s = .next t) (hne : t.vblank ≠ s.vblank) :
    s.vblank = true ∧ ∃ b1 b2 b3, BytesAtPc s 0x02 b1 b2 b3 := by
  obtain ⟨b0, b1, b2, b3, i, hb, hd, hi⟩ := stepRuns_of_changed (·.vblank) (fun _ _ _ => rfl) h hne
  constructor
  · by_contra hs
    have clear : s.vblank = false := by simpa using hs
    exact hne ((exec_vblank_of_clear (s := s.advance) hi clear).trans clear.symm)
  · have isVblnk : i = .vblnk := by
      by_contra hv
      exact hne (exec_vblank (s := s.advance) hi hv)
    obtain rfl : b0 = 0x02 := opcode_of_decode_vblnk (isVblnk ▸ hd)
    exact ⟨b1, b2, b3, hb⟩

/-! ### The invariant -/

/-- Where nothing is latched, the invariant is the canonical form of the storages. -/
theorem inv_of_noFault (hm : s.mem.wf = true) (hfb : s.fb.wf = true) (hf : s.fault = none) : Inv s where
  mem := hm
  fb := hfb
  latch := fun r h => by cases hf.symm.trans h
  pc := fun r h => by cases hf.symm.trans h

/-- A raise meets the invariant if its record does. -/
theorem inv_raise {a : Word} {bs : List Byte} {c : FaultCause} (hm : s.mem.wf = true) (hfb : s.fb.wf = true)
    (hr : RecordJustified ⟨c, a, bs⟩) (hpc : s.pc = a ∨ s.pc = a + 4) : Inv (s.raise a bs c) where
  mem := hm
  fb := hfb
  latch := by rintro _ ⟨⟩; exact hr
  pc := by rintro _ ⟨⟩; exact hpc

/-- The record of bytes that are no instruction is justified (60_exceptions.md rule R263). -/
theorem recordJustified_of_decode_error {r : RawInstr} {e : DecodeError} (a : Word) (h : decode r = .error e) :
    RecordJustified ⟨causeOfDecodeError e, a, r.toList⟩ := by
  obtain ⟨rfl, ho⟩ | ⟨rfl, hb, h0, h9⟩ := decode_eq_error h
  · exact ⟨rfl, by simpa [legalOpcode] using ho⟩
  · exact ⟨congrArg some hb, rfl, by simpa [legalSelector] using ⟨h0, h9⟩⟩

/-- The body of an instruction keeps the invariant of a core that runs. -/
theorem inv_exec_advance {i : Instr} (hs : Inv s) (hf : s.fault = none) (h : exec i s.advance = .next t) :
    Inv t := by
  have hm : t.mem.wf = true := (exec_keeps h).1 ▸ hs.mem
  obtain hk | ⟨x, y, imm, -, rfl⟩ := exec_fault h
  · exact inv_of_noFault hm (exec_fb_wf h hs.fb) (hk.trans hf)
  · refine inv_raise hs.mem hs.fb ?_ ?_
    · exact (by decide : Config.memSize ≤ uval 0xFFFF)
    · exact .inr (by rw [State.bodyAddr_advance]; rfl)

/-- Every step of the core keeps the invariant. -/
theorem inv_step (hs : Inv s) (h : step s = .next t) : Inv t := by
  obtain ⟨_, _, hb, rfl⟩ | ⟨_, _, _, _, _, -, hd, rfl⟩ | ⟨_, _, _, _, _, -, -, hi⟩ := step_cases h
  · exact inv_raise hs.mem hs.fb (Memory.fetch_bad hb) (.inl rfl)
  · exact inv_raise hs.mem hs.fb (recordJustified_of_decode_error _ hd) (.inr rfl)
  · exact inv_exec_advance hs (step_next h).1.2 hi

theorem inv_reset : Inv State.reset :=
  inv_of_noFault Memory.wf_nil (Framebuffer.wf_ofFn _) rfl

/-- A launch that runs leaves reset with the image and the start address (70_reset_and_hazards.md rule R290). -/
theorem launch_next {image : List Byte} {start : Word} (h : launch image start = .next s) :
    image.length ≤ Config.memSize ∧
      s = { State.reset with mem := Sparse.ofList Memory.unlisted 0 image, pc := start } := by
  by_cases hl : image.length ≤ Config.memSize
  · rw [launch_of_le hl] at h; cases h; exact ⟨hl, rfl⟩
  · rw [launch_of_lt (by omega)] at h; cases h

theorem inv_launch {image : List Byte} {start : Word} (h : launch image start = .next s) : Inv s := by
  obtain ⟨hl, rfl⟩ := launch_next h
  exact inv_of_noFault (Memory.wf_ofList hl) (Framebuffer.wf_ofFn _) rfl

/-- `t` meets the invariant and holds the program and the stack pointer of `s`. -/
def KeepsProgram (s t : State) : Prop := Inv t ∧ t.mem = s.mem ∧ t.sp = s.sp

theorem KeepsProgram.refl (h : Inv s) : KeepsProgram s s := ⟨h, rfl, rfl⟩

theorem KeepsProgram.step {u : State} (h : KeepsProgram s t) (hu : step t = .next u) : KeepsProgram s u := by
  obtain ⟨hi, hm, hsp⟩ := h
  obtain ⟨hm', hsp', -⟩ := step_keeps hu
  exact ⟨inv_step hi hu, hm'.trans hm, hsp'.trans hsp⟩

/-- What the first state of a run has and every step keeps, every state of the run has. -/
theorem reaches_induction {P : State → Prop} (hs : P s) (hstep : ∀ t u, P t → step t = .next u → P u)
    (h : Reaches s t) : P t := by
  induction h with
  | refl => exact hs
  | step _ hu ih => exact hstep _ _ ih hu

/-! ### The events -/

/-- What an event can do, and when it can happen (50_agents_and_interfaces.md rules R240, R246). -/
theorem next_cases {e : Event} {y y' : System} (h : System.next e y = some y') :
    y.machine.stopped = false ∧
      ((e = .cycle ∧ ∃ t, step y.machine = .next t ∧ y' = { y with machine := t }) ∨
        (e = .present ∧ y.phase = .idle ∧
          y' = { y with phase := .presented, shown := some y.machine.fb }) ∨
        (e = .setLatch ∧ y.phase = .presented ∧
          y' = { y with machine := y.machine.setLatch, phase := .idle }) ∨
        (e = .stop ∧ y' = { y with machine := y.machine.stop })) := by
  unfold System.next at h
  split at h <;> rename_i hs
  · cases h
  refine ⟨by simpa using hs, ?_⟩
  split at h
  · split at h <;> rename_i ht <;> cases h
    exact .inl ⟨rfl, _, ht, rfl⟩
  · cases h; exact .inr (.inl ⟨rfl, ‹_›, rfl⟩)
  · cases h
  · cases h; exact .inr (.inr (.inl ⟨rfl, ‹_›, rfl⟩))
  · cases h
  · cases h; exact .inr (.inr (.inr ⟨rfl, rfl⟩))

/-- Of the machine, an event is a step, the set-latch, the stop or nothing. -/
theorem next_machine {e : Event} {y y' : System} (h : System.next e y = some y') :
    (e = .cycle ∧ step y.machine = .next y'.machine) ∨ (e = .present ∧ y'.machine = y.machine) ∨
      (e = .setLatch ∧ y'.machine = y.machine.setLatch) ∨ (e = .stop ∧ y'.machine = y.machine.stop) := by
  obtain ⟨-, ⟨he, _, ht, rfl⟩ | ⟨he, -, rfl⟩ | ⟨he, -, rfl⟩ | ⟨he, rfl⟩⟩ := next_cases h
  · exact .inl ⟨he, ht⟩
  · exact .inr (.inl ⟨he, rfl⟩)
  · exact .inr (.inr (.inl ⟨he, rfl⟩))
  · exact .inr (.inr (.inr ⟨he, rfl⟩))

/-- What the machine has at first and every event keeps, it has after every schedule. -/
theorem run_induction {P : State → Prop}
    (hnext : ∀ e y y', P y.machine → System.next e y = some y' → P y'.machine) {es : List Event}
    {y y' : System} (hy : P y.machine) (h : System.run es y = some y') : P y'.machine := by
  induction es generalizing y with
  | nil => cases h; exact hy
  | cons e rest ih =>
    unfold System.run at h
    split at h
    · exact ih (hnext e _ _ hy ‹_›) h
    · cases h

theorem KeepsProgram.next {e : Event} {y y' : System} (h : KeepsProgram s y.machine)
    (hy : System.next e y = some y') : KeepsProgram s y'.machine := by
  obtain ⟨-, ht⟩ | ⟨-, ht⟩ | ⟨-, ht⟩ | ⟨-, ht⟩ := next_machine hy
  · exact h.step ht
  all_goals
    obtain ⟨hi, hm, hsp⟩ := h
    rw [ht]
    exact ⟨⟨hi.mem, hi.fb, hi.latch, hi.pc⟩, hm, hsp⟩

/-- `t` is `s` but for the vertical-blank latch and the host's stop. -/
def FrozenFrom (s t : State) : Prop := t = { s with vblank := t.vblank, stopped := t.stopped }

/-- A faulted core has no step (60_exceptions.md rule R265), so no event moves it. -/
theorem FrozenFrom.next {e : Event} {y y' : System} (hs : s.fault ≠ none) (h : FrozenFrom s y.machine)
    (hy : System.next e y = some y') : FrozenFrom s y'.machine := by
  have faulted : y.machine.fault ≠ none := by rw [h]; exact hs
  obtain ⟨-, ht⟩ | ⟨-, ht⟩ | ⟨-, ht⟩ | ⟨-, ht⟩ := next_machine hy
  · exact absurd (step_next ht).1.2 faulted
  all_goals
    rw [ht, h]
    exact rfl

end Sys2Proof.Machine
end

section
/-! The obligations of the state: what every step, every body and every schedule changes and reads
(10_state.md). -/

namespace Sys2Proof

open Sys2Proof.Machine

/-- Settles O39, by the registers' read after write. -/
theorem registersAreIndependent : Obligations.RegistersAreIndependent :=
  State.readReg_writeReg

/-- Settles O45: nothing is latched, and `ofFn` gives the canonical form whatever the cells hold. -/
theorem resetMeetsTheInvariant : Obligations.ResetMeetsTheInvariant := inv_reset

/-- Settles O59, from the canonical empty memory and the cells of `FB_RESET`. -/
theorem resetValues : Obligations.ResetValues := by
  refine ⟨fun a ha => ?_, fun j => ?_, rfl, rfl, rfl, rfl, rfl, rfl, rfl, rfl, fun px py h => ?_⟩
  · have mapped : uval a < Config.memSize := by
      by_contra h
      exact ha (eq_last_of_unmapped h)
    exact Memory.read_of_lt mapped
  · simp [State.readReg, State.reset, Config.regsReset, Vector.get_eq_getElem]
  · rw [Framebuffer.read_of_inRange h]
    exact congrArg some (Framebuffer.cellAt_ofFn _ (cellIndex_lt h))

/-- Settles O58: the launch is reset with the image, whose bytes are read back from the storage. -/
theorem launchStateIsResetWithTheImage : Obligations.LaunchStateIsResetWithTheImage := by
  refine fun image start => ⟨fun h => ?_, fun h => launch_of_lt h start⟩
  have launched := launch_of_le h start
  refine ⟨_, launched, inv_launch launched, ⟨rfl, rfl⟩, fun k hk => ?_, fun k hk => ?_, rfl⟩
  · rw [Memory.byteAt_ofList, List.getD_eq_getElem _ _ hk, List.getElem?_eq_getElem hk]
  · rw [Memory.byteAt_ofList, List.getD_eq_default _ _ hk]

/-- Settles O38: one lemma on the writers, and one per reader. -/
theorem flagWritersAndReaders : Obligations.FlagWritersAndReaders := by
  refine ⟨fun i s t h hi => exec_flags h hi, fun i s f hi => exec_setFlags_of_arithmetic s f hi,
    fun x y imm s t b h ht hs => exec_drw_setCarry b h (ht.trans hs), fun imm s f hz => ?_,
    fun imm s f hc => ?_, fun i s t f hz hc h => exec_setFlags f hz hc h⟩
  · exact ⟨_, exec_jz imm, by rw [exec_jz, hz]⟩
  · exact ⟨_, exec_jc imm, by rw [exec_jc, hc]⟩

/-- Settles O40: only a body changes a register, and it writes its destination alone. -/
theorem registersChangeOnlyAsDestinations : Obligations.RegistersChangeOnlyAsDestinations := by
  intro s t j h hj
  obtain ⟨_, _, _, _, i, hb, hd, hi⟩ := stepRuns_of_changed (·.readReg j) (fun _ _ _ => rfl) h hj
  refine ⟨_, _, _, _, i, hb, hd, ?_⟩
  by_contra hdest
  exact hj (exec_readReg (s := s.advance) hi hdest)

/-- Settles O46: the three ways a step goes exclude each other, and each names the `pc` it leaves. -/
theorem pcAfterEveryCycle : Obligations.PcAfterEveryCycle := by
  refine ⟨fun s t h => ?_, fun i s t p h => exec_setPc p h⟩
  obtain ⟨_, _, hf, rfl⟩ | ⟨_, _, _, _, _, hb, hd, rfl⟩ | ⟨_, _, _, _, _, hb, hd, hi⟩ := step_cases h
  · have noBytes {b0 b1 b2 b3} : ¬BytesAtPc s b0 b1 b2 b3 := fun hb => by
      cases hf.symm.trans (bytesAtPc_iff_fetch.mp hb)
    exact ⟨fun _ _ _ _ _ hb => absurd hb noBytes, fun _ _ _ _ _ hb => absurd hb noBytes, fun _ => rfl⟩
  · refine ⟨fun _ _ _ _ _ hb' hd' => ?_, fun _ _ _ _ _ _ _ => rfl, fun hn => absurd ⟨_, _, _, _, hb⟩ hn⟩
    cases decode_unique hb hd hb' hd'
  · refine ⟨fun _ _ _ _ _ hb' hd' => ?_, fun _ _ _ _ _ hb' hd' => ?_,
      fun hn => absurd ⟨_, _, _, _, hb⟩ hn⟩
    · cases decode_unique hb hd hb' hd'
      exact exec_advance_pc hi
    · cases decode_unique hb hd hb' hd'

/-- Settles O47: only a body changes the framebuffer, and only CLS's or DRW's. -/
theorem storesAreOnlyToTheFramebuffer : Obligations.StoresAreOnlyToTheFramebuffer := by
  intro s t h
  obtain ⟨hm, hsp, hst⟩ := step_keeps h
  refine ⟨hm, hsp, hst, fun hfb => ?_⟩
  obtain ⟨_, _, _, _, i, hb, hd, hi⟩ := stepRuns_of_changed (·.fb) (fun _ _ _ => rfl) h hfb
  exact ⟨_, _, _, _, i, hb, hd, exec_fb hi hfb⟩

/-- Settles O48: the fetch and the decoding are the same in both states, and no body reads the difference. -/
theorem unreadStateNeverMatters : Obligations.UnreadStateNeverMatters := by
  intro s s' t ha h
  have hs' : CanStep s' := by rw [ha]; exact (step_next h).1
  obtain ⟨_, _, hf, rfl⟩ | ⟨_, _, _, _, _, hb, hd, rfl⟩ | ⟨_, _, _, _, _, hb, hd, hi⟩ := step_cases h
  · exact ⟨_, step_of_fetch_error hs' (by rw [ha]; exact hf), by rw [ha]; rfl⟩
  · exact ⟨_, step_of_decode_error hs' (by rw [ha]; exact hb) hd, by rw [ha]; rfl⟩
  · rw [step_of_decode hs' (by rw [ha]; exact hb) hd]
    exact exec_agreeOnRead (by rw [ha]; rfl) hi

/-- Settles O50, by induction over the run. -/
theorem everyRunFromALaunchMeetsTheInvariant : Obligations.EveryRunFromALaunchMeetsTheInvariant :=
  fun _ _ _ _ hl hr => reaches_induction (P := KeepsProgram _) (.refl (inv_launch hl)) (fun _ _ => .step) hr

/-- Settles O51: only a cycle and the set-latch write the latch, and of the bodies only VBLNK's. -/
theorem whoSetsClearsAndReadsTheLatch : Obligations.WhoSetsClearsAndReadsTheLatch := by
  refine ⟨fun _ => rfl, fun e y y' h => ?_, fun i s t b hi h => ⟨exec_vblank h hi, exec_setVblank b hi h⟩⟩
  obtain ⟨rfl, ht⟩ | ⟨rfl, ht⟩ | ⟨rfl, ht⟩ | ⟨rfl, ht⟩ := next_machine h
  · have fell (hne : y'.machine.vblank ≠ y.machine.vblank) := step_vblank_changed ht hne
    refine ⟨fun hl hh => ?_, fun hh hl => ⟨rfl, (fell (by simp [hh, hl])).2⟩⟩
    cases hl.symm.trans (fell (by simp [hh, hl])).1
  all_goals simp_all

/-- Settles O54, by induction over the schedule. -/
theorem everyScheduleKeepsTheProgram : Obligations.EveryScheduleKeepsTheProgram :=
  fun _ _ _ hi hr => run_induction (P := KeepsProgram _) (fun _ _ _ => .next) (.refl hi) hr

/-- Settles O55, by induction over the schedule. -/
theorem faultLatchIsFinal : Obligations.FaultLatchIsFinal :=
  fun _ _ _ hf hr => run_induction (P := FrozenFrom _) (fun _ _ _ => .next hf) rfl hr

end Sys2Proof
end

section
/-! The accesses to memory and the framebuffer: read after write, the bound, and the fetch of a stored word
(20_memory.md). -/

namespace Sys2Proof.Machine

variable {m : Memory} {a : Word} {v : Byte}

/-- Every address but the last has a byte (20_memory.md rule R53). -/
theorem lt_memSize_iff : uval a < Config.memSize ↔ a ≠ 0xFFFF := by
  constructor
  · rintro h rfl
    exact absurd h (by decide)
  · exact not_imp_comm.mp eq_last_of_unmapped

theorem Memory.write_of_lt (h : uval a < Config.memSize) : m.write a v = .ok (m.store a v) := by
  simp only [Memory.store, Memory.write, if_pos h]

theorem Memory.write_of_not_lt (h : ¬uval a < Config.memSize) : m.write a v = .error a := if_neg h

/-- Read after write: the written address gives the value, every other answers as before. -/
theorem Memory.read_store (hm : m.wf = true) (ha : uval a < Config.memSize) (v : Byte) (b : Word) :
    (m.store a v).read b = if b = a then .ok v else m.read b := by
  by_cases hb : uval b < Config.memSize
  · rw [Memory.read_of_lt hb, Memory.read_of_lt hb, Memory.byteAt_store hm ha]
    simp only [uval, BitVec.toNat_inj]
    exact apply_ite Except.ok _ _ _
  · have other : b ≠ a := fun e => hb (e ▸ ha)
    rw [Memory.read_of_not_lt hb, Memory.read_of_not_lt hb, if_neg other]

/-- The bytes after an instruction is stored where four bytes exist. -/
theorem Memory.byteAt_storeInstr (hm : m.wf = true) (ha : uval a < 0xFFFC) (r : RawInstr) (k : Nat) :
    (m.storeInstr a r).byteAt k =
      if k = uval a + 3 then r.b3 else if k = uval a + 2 then r.b2
      else if k = uval a + 1 then r.b1 else if k = uval a then r.b0 else m.byteAt k := by
  have address (j : Nat) (hj : j ≤ 3) : uval (addrAt a j) = uval a + j := by rw [uval_addrAt]; omega
  have mapped (j : Nat) (hj : j ≤ 3) : uval (addrAt a j) < Config.memSize := by
    rw [address j hj, Config.memSize]; omega
  have wf0 := Memory.wf_store hm a r.b0
  have wf1 := Memory.wf_store wf0 (addrAt a 1) r.b1
  have wf2 := Memory.wf_store wf1 (addrAt a 2) r.b2
  rw [Memory.storeInstr, Memory.byteAt_store wf2 (mapped 3 (by decide)),
    Memory.byteAt_store wf1 (mapped 2 (by decide)), Memory.byteAt_store wf0 (mapped 1 (by decide)),
    Memory.byteAt_store hm (by rw [Config.memSize]; omega), address 1 (by decide), address 2 (by decide),
    address 3 (by decide)]

/-- The fetch answers the instruction stored where it reads (40_cycle.md rule R112). -/
theorem Memory.fetch_storeInstr (hm : m.wf = true) (ha : uval a < 0xFFFC) (r : RawInstr) :
    (m.storeInstr a r).fetch a = .ok r := by
  obtain ⟨-, hf⟩ | ⟨outside, -⟩ := Memory.fetch_cases (m.storeInstr a r) a
  · rw [hf]
    simp [Memory.byteAt_storeInstr hm ha]
  · omega

theorem step_of_fetch {s : State} {r : RawInstr} (hs : CanStep s) (h : s.mem.fetch s.pc = .ok r) :
    step s = dispatchRaw r s := by
  rw [step_of_canStep hs, cycle, h]

/-- A 32-bit table word is stored whole: the reduction to its bits changes nothing. -/
theorem State.withFetchWord_mem (s : State) (w : Nat) :
    (s.withFetchWord 32 w).mem = s.mem.storeInstr s.pc (RawInstr.ofTableWord (BitVec.ofNat 32 w)) := by
  have whole : BitVec.ofNat 32 (w % 2 ^ 32) = BitVec.ofNat 32 w := BitVec.eq_of_toNat_eq (by simp)
  simp only [State.withFetchWord, whole]

end Sys2Proof.Machine
end

section
/-! The obligations of memory and the framebuffer (20_memory.md). -/

namespace Sys2Proof

open Sys2Proof.Machine

/-- Settles O44: a step raises at the fetch or the decoding with a justified record, or runs a body, which
keeps the invariant. -/
theorem stepKeepsTheInvariant : Obligations.StepKeepsTheInvariant := fun _ _ => inv_step

/-- Settles O41: the write is a store exactly where the address has a byte. -/
theorem memoryReadAfterWrite : Obligations.MemoryReadAfterWrite := by
  refine fun m a v hm => ⟨fun ha => ?_, fun ha => ?_⟩
  · have mapped := lt_memSize_iff.mpr ha
    exact ⟨m.store a v, Memory.write_of_lt mapped, Memory.wf_store hm a v, Memory.read_store hm mapped v⟩
  · have unmapped : ¬uval a < Config.memSize := fun h => lt_memSize_iff.mp h ha
    exact ⟨Memory.write_of_not_lt unmapped, Memory.read_of_not_lt unmapped⟩

/-- Settles O42: in-range pixels have cells of their own, and the write is dropped where there is no cell. -/
theorem framebufferReadAfterWrite : Obligations.FramebufferReadAfterWrite := by
  refine fun fb px py v hfb => ⟨fun h qx qy => ?_, fun h => ?_⟩
  · simp only [Framebuffer.read_write hfb, h, true_and]
  · exact ⟨Framebuffer.write_of_not_inRange h, Framebuffer.read_of_not_inRange h⟩

/-- Settles O43: the fetch of the step reads the four bytes that were stored. -/
theorem fetchSeesTheStoredWord : Obligations.FetchSeesTheStoredWord := by
  intro s w hs hm hpc
  have stored : (s.withFetchWord 32 w).mem.fetch s.pc = .ok (RawInstr.ofTableWord (BitVec.ofNat 32 w)) := by
    rw [State.withFetchWord_mem]
    exact Memory.fetch_storeInstr hm hpc _
  exact step_of_fetch (s := s.withFetchWord 32 w) hs stored

end Sys2Proof
end

section
/-! The encoder and the opcode table against the decoder: the row of an instruction, what the row keeps of a word,
and the words that no row takes (30_encoding.md). -/

namespace Sys2Proof

open Sys2Proof.Machine

/-! ### The fields of encoded bytes -/

@[simp] theorem RawInstr.x_operandByte (b0 : Byte) (x y : Nibble) (b2 b3 : Byte) :
    RawInstr.x ⟨b0, operandByte x y, b2, b3⟩ = x := lowNibble_operandByte x y

@[simp] theorem RawInstr.y_operandByte (b0 : Byte) (x y : Nibble) (b2 b3 : Byte) :
    RawInstr.y ⟨b0, operandByte x y, b2, b3⟩ = y := highNibble_operandByte x y

@[simp] theorem RawInstr.z_operandByte (b0 b1 : Byte) (z u : Nibble) (b3 : Byte) :
    RawInstr.z ⟨b0, b1, operandByte z u, b3⟩ = z := lowNibble_operandByte z u

@[simp] theorem RawInstr.imm_bytes (b0 b1 : Byte) (v : Word) :
    RawInstr.imm ⟨b0, b1, lowByte v, highByte v⟩ = v := highByte_append_lowByte v

@[simp] theorem RawInstr.operandByte_x_y (r : RawInstr) : operandByte r.x r.y = r.b1 := operandByte_nibbles r.b1

@[simp] theorem RawInstr.lowByte_imm (r : RawInstr) : lowByte r.imm = r.b2 := lowByte_append r.b3 r.b2

@[simp] theorem RawInstr.highByte_imm (r : RawInstr) : highByte r.imm = r.b3 := highByte_append r.b3 r.b2

/-- The operand byte of JZ (rule R91). -/
theorem operandByte_jz : operandByte 0x0#4 0x0#4 = 0x00#8 := rfl

/-- The operand byte of JC with 0 in the ignored nibble (rule R91). -/
theorem operandByte_jc : operandByte 0x9#4 0x0#4 = 0x09#8 := rfl

theorem and_lowMask (b : Byte) : b &&& 0x0F#8 = operandByte (lowNibble b) 0 := by
  revert b; decide

/-- Where only the low nibble of a byte is used, an assembler writes 0 in the high one (rule R101). -/
theorem RawInstr.b1_and_lowMask (r : RawInstr) : r.b1 &&& 0x0F#8 = operandByte r.x 0 := and_lowMask r.b1

theorem RawInstr.b2_and_lowMask (r : RawInstr) : r.b2 &&& 0x0F#8 = operandByte r.z 0 := and_lowMask r.b2

theorem and_fullMask (b : Byte) : b &&& 0xFF#8 = b := BitVec.and_allOnes

/-! ### Decode after encode -/

/-- The decoder reads back what the encoder writes: each field from the byte it was put in. -/
theorem decode_encode (i : Instr) : decode (encode i) = .ok i := by
  cases i with
  | cls => rfl
  | vblnk => rfl
  | jz | jc => simp [decode, encode, decodeJcc]
  | _ => simp [decode, encode]

theorem encode_injective {i j : Instr} (h : encode i = encode j) : i = j := by
  have decoded : Except.ok (ε := DecodeError) i = .ok j := by rw [← decode_encode i, h, decode_encode]
  exact Except.ok.inj decoded

theorem RawInstr.toTableWord_injective {r r' : RawInstr} (h : r.toTableWord = r'.toTableWord) : r = r' := by
  rw [← RawInstr.ofTableWord_toTableWord r, h, RawInstr.ofTableWord_toTableWord]

/-! ### The row of an instruction -/

/-- The row of the opcode table that an instruction belongs to: the table lists them in the order of the
constructors. -/
def Instr.row (i : Instr) : TableRow := opcodeTable[i.ctorIdx]'(by cases i <;> simp [opcodeTable, Instr.ctorIdx])

theorem Instr.row_mem (i : Instr) : i.row ∈ opcodeTable := List.getElem_mem _

theorem Instr.row_mnemonic (i : Instr) : i.row.mnemonic = i.mnemonic := by cases i <;> rfl

theorem TableRow.selects_iff {row : TableRow} {r : RawInstr} :
    row.selects r = true ↔ r.toTableWord &&& row.mask = row.pattern := beq_iff_eq

theorem TableRow.sameUsedBits_iff {row : TableRow} {r r' : RawInstr} :
    row.sameUsedBits r r' = true ↔ r.toTableWord &&& ~~~row.ignored = r'.toTableWord &&& ~~~row.ignored :=
  beq_iff_eq

/-- The row of `i` selects `r`, and `i` is encoded as the used bits of `r` with 0 in the ignored ones. -/
def ReadAs (r : RawInstr) (i : Instr) : Prop :=
  i.row.selects r = true ∧ r.toTableWord &&& ~~~i.row.ignored = (encode i).toTableWord

/-- What the decoder reads is of a row that selects the word, and keeps the bits that the row uses. -/
theorem readAs_of_decode {r : RawInstr} {i : Instr} (h : decode r = .ok i) : ReadAs r i := by
  revert h
  refine decode_rows (P := fun d => d = .ok i → ReadAs r i) r ?_ ?_ ?_ ?_ ?_ ?_ ?jcc ?_ ?_ ?_ ?_ ?_ ?_ ?_ ?illegal
  case illegal => exact fun _ h => nomatch h
  all_goals intro hb
  case' jcc =>
    obtain ⟨hx, hj⟩ | ⟨hx, hj⟩ | ⟨-, -, hj⟩ := decodeJcc_cases r <;> rw [hj]
    on_goal 3 => exact fun h => nomatch h
  all_goals
    rintro ⟨⟩
    simp only [ReadAs, TableRow.selects_iff, RawInstr.masked_eq_iff, RawInstr.ofTableWord_toTableWord, Instr.row,
      Instr.ctorIdx, opcodeTable, List.getElem_cons_succ, List.getElem_cons_zero]
    simp [RawInstr.ofTableWord, encode, and_fullMask, RawInstr.b1_and_lowMask, RawInstr.b2_and_lowMask,
      operandByte_jz, operandByte_jc, *]

/-- No word is of two rows: the patterns differ on the bits that both rows fix. -/
theorem row_unique {row row' : TableRow} {r : RawInstr} (hrow : row ∈ opcodeTable) (hrow' : row' ∈ opcodeTable)
    (h : row.selects r = true) (h' : row'.selects r = true) : row = row' := by
  have disjoint : ∀ p ∈ opcodeTable, ∀ q ∈ opcodeTable,
      p.pattern &&& q.mask = q.pattern &&& p.mask → p = q := by decide
  rw [TableRow.selects_iff] at h h'
  refine disjoint row hrow row' hrow' ?_
  rw [← h, ← h', BitVec.and_assoc, BitVec.and_assoc, BitVec.and_comm row.mask]

/-- A word of a row has its opcode byte, which is legal, and in opcode 0x12 its selector, which is 0 or 9. -/
theorem legal_of_selects {row : TableRow} {r : RawInstr} (hrow : row ∈ opcodeTable) (h : row.selects r = true) :
    r.b0 ∈ legalOpcodes ∧ (r.b0 = 0x12 → r.x = 0x0 ∨ r.x = 0x9) := by
  have table : ∀ p ∈ opcodeTable,
      (RawInstr.ofTableWord p.mask).b0 = 0xFF#8 ∧ (RawInstr.ofTableWord p.pattern).b0 ∈ legalOpcodes ∧
        ((RawInstr.ofTableWord p.pattern).b0 = 0x12 → (RawInstr.ofTableWord p.mask).b1 = 0x0F#8 ∧
          ((RawInstr.ofTableWord p.pattern).x = 0x0 ∨ (RawInstr.ofTableWord p.pattern).x = 0x9)) := by decide
  obtain ⟨opcodeMask, legal, selector⟩ := table row hrow
  obtain ⟨h0, h1, -, -⟩ := (RawInstr.masked_eq_iff r _ _).mp (TableRow.selects_iff.mp h)
  rw [opcodeMask, and_fullMask] at h0
  refine ⟨h0 ▸ legal, fun hb => ?_⟩
  obtain ⟨selectorMask, hx⟩ := selector (h0 ▸ hb)
  rw [selectorMask, RawInstr.b1_and_lowMask] at h1
  have same : r.x = (RawInstr.ofTableWord row.pattern).x := by
    rw [RawInstr.x, RawInstr.x, ← h1, lowNibble_operandByte]; rfl
  rwa [same]

theorem decode_of_selects {row : TableRow} {r : RawInstr} (hrow : row ∈ opcodeTable) (h : row.selects r = true) :
    ∃ i, decode r = .ok i := by
  obtain ⟨legal, selector⟩ := legal_of_selects hrow h
  match hd : decode r with
  | .ok i => exact ⟨i, rfl⟩
  | .error e =>
    obtain ⟨-, illegal⟩ | ⟨-, hb, h0, h9⟩ := decode_eq_error hd
    · exact absurd legal illegal
    · exact absurd (selector hb) (not_or.mpr ⟨h0, h9⟩)

/-- The bits that select a row are among those that it uses. -/
theorem selects_of_sameUsedBits {row : TableRow} {r r' : RawInstr} (hrow : row ∈ opcodeTable)
    (h : row.selects r = true) (hs : row.sameUsedBits r r' = true) : row.selects r' = true := by
  have fixedUsed : ∀ p ∈ opcodeTable, ~~~p.ignored &&& p.mask = p.mask := by decide
  rw [TableRow.selects_iff] at h ⊢
  rw [TableRow.sameUsedBits_iff] at hs
  calc r'.toTableWord &&& row.mask
      = r'.toTableWord &&& ~~~row.ignored &&& row.mask := by rw [BitVec.and_assoc, fixedUsed row hrow]
    _ = r.toTableWord &&& ~~~row.ignored &&& row.mask := by rw [hs]
    _ = row.pattern := by rw [BitVec.and_assoc, fixedUsed row hrow, h]

/-- Words of one row that agree on the bits it uses are encoded alike after decoding, and the encoding determines
the instruction. -/
theorem decode_of_sameUsedBits {row : TableRow} {r r' : RawInstr} (hrow : row ∈ opcodeTable)
    (h : row.selects r = true) (hs : row.sameUsedBits r r' = true) : decode r' = decode r := by
  have h' := selects_of_sameUsedBits hrow h hs
  obtain ⟨i, hi⟩ := decode_of_selects hrow h
  obtain ⟨i', hi'⟩ := decode_of_selects hrow h'
  obtain ⟨hsel, hword⟩ := readAs_of_decode hi
  obtain ⟨hsel', hword'⟩ := readAs_of_decode hi'
  rw [row_unique i.row_mem hrow hsel h] at hword
  rw [row_unique i'.row_mem hrow hsel' h'] at hword'
  have encoded : (encode i').toTableWord = (encode i).toTableWord := by
    rw [← hword, ← hword', TableRow.sameUsedBits_iff.mp hs]
  rw [hi, hi', encode_injective (RawInstr.toTableWord_injective encoded)]

/-! ### The words of no row -/

theorem decode_of_illegal_opcode {r : RawInstr} (h : r.b0 ∉ legalOpcodes) :
    decode r = .error (.unrecognizedOpcode r.b0) := by
  have absent {op : Byte} (hb : r.b0 = op) (hop : op ∈ legalOpcodes) : False := h (hb ▸ hop)
  apply decode_rows (P := (· = .error (.unrecognizedOpcode r.b0))) r
  case illegal => exact fun _ => rfl
  all_goals exact fun hb => (absent hb (by decide)).elim

theorem decode_of_jcc {r : RawInstr} (h : r.b0 = 0x12) : decode r = decodeJcc r := by
  unfold decode; rw [h]; rfl

theorem decode_of_illegal_selector {r : RawInstr} (hb : r.b0 = 0x12) (h0 : r.x ≠ 0x0) (h9 : r.x ≠ 0x9) :
    decode r = .error (.unrecognizedCondition r.x) := by
  rw [decode_of_jcc hb, decodeJcc, if_neg h0, if_neg h9]

end Sys2Proof
end

section
/-! The obligations of the encoding (30_encoding.md). -/

namespace Sys2Proof

open Sys2Proof.Machine

/-- Settles O2: each field is read back from the byte it was put in. -/
theorem decodeOfEncodeIsTheInstruction : Obligations.DecodeOfEncodeIsTheInstruction := decode_encode

/-- Settles O3: the encoding of what was read is the word with 0 in the ignored bits. -/
theorem decodedInstructionKeepsTheUsedBits : Obligations.DecodedInstructionKeepsTheUsedBits := by
  intro r i h
  obtain ⟨hsel, hword⟩ := readAs_of_decode h
  refine ⟨i.row, i.row_mem, i.row_mnemonic, hsel, TableRow.sameUsedBits_iff.mpr ?_⟩
  rw [← hword, BitVec.and_assoc, BitVec.and_self]

/-- Settles O4: what is read is of a row that selects the word, and no error is left to a selected word. -/
theorem decoderAcceptsExactlyTheTable : Obligations.DecoderAcceptsExactlyTheTable := by
  refine ⟨fun r => ⟨?_, ?_⟩, fun r row hrow row' hrow' => row_unique hrow hrow'⟩
  · rintro ⟨i, h⟩
    exact ⟨i.row, i.row_mem, (readAs_of_decode h).1⟩
  · rintro ⟨row, hrow, h⟩
    exact decode_of_selects hrow h

/-- Settles O5: both words are of the row, and what they decode to is encoded alike. -/
theorem ignoredBitsNeverMatter : Obligations.IgnoredBitsNeverMatter :=
  fun _ hrow _ _ => decode_of_sameUsedBits hrow

/-- Settles O6: one inversion of the rejections, and one equation for each. -/
theorem decoderRejectsExactlyTheIllegal : Obligations.DecoderRejectsExactlyTheIllegal := by
  refine ⟨fun r op => ⟨fun h => ?_, ?_⟩, fun r sel => ⟨fun h => ?_, ?_⟩⟩
  · obtain ⟨he, illegal⟩ | ⟨he, -⟩ := decode_eq_error h <;> cases he
    exact ⟨rfl, illegal⟩
  · rintro ⟨rfl, illegal⟩
    exact decode_of_illegal_opcode illegal
  · obtain ⟨he, -⟩ | ⟨he, hb, h0, h9⟩ := decode_eq_error h <;> cases he
    exact ⟨hb, rfl, h0, h9⟩
  · rintro ⟨hb, rfl, h0, h9⟩
    exact decode_of_illegal_selector hb h0 h9

/-- Settles O9: the step of bytes that the decoder rejects is the raise on the advanced state. -/
theorem unrecognizedWordRaisesAfterTheAdvance : Obligations.UnrecognizedWordRaisesAfterTheAdvance :=
  fun _ _ _ _ _ hs hb =>
    ⟨fun illegal => step_of_decode_error hs hb (decode_of_illegal_opcode illegal),
      fun jcc h0 h9 => step_of_decode_error hs hb (decode_of_illegal_selector jcc h0 h9)⟩

/-- Settles O1, by running the decoder on each word. -/
theorem wordsWrittenFromTheSpecDecode : Obligations.WordsWrittenFromTheSpecDecode :=
  ⟨rfl, rfl, rfl, rfl, rfl, rfl, rfl⟩

end Sys2Proof
end

section
/-! Every cycle answers a next state, and the fetch split at its bound (40_cycle.md). -/

namespace Sys2Proof.Machine

variable {s : State}

/-! ### Where a step exists -/

/-- Every body answers a next state; DRW does so whether or not its source bytes exist. -/
theorem exec_exists_next (i : Instr) (s : State) : ∃ t, exec i s = .next t := by
  cases i with
  | vblnk => exact ⟨_, exec_vblnk⟩
  | drw x y imm =>
    cases h : s.mem.readRun imm s.spriteBytes with
    | error bad => exact ⟨_, exec_drw_of_error h⟩
    | ok data => exact ⟨_, exec_drw_of_ok h⟩
  | _ => exact ⟨_, rfl⟩

theorem dispatchRaw_exists_next (r : RawInstr) (s : State) : ∃ t, dispatchRaw r s = .next t := by
  unfold dispatchRaw
  split
  · exact ⟨_, rfl⟩
  · exact exec_exists_next _ _

/-- A core that may run has a next state (40_cycle.md rule R111). -/
theorem step_exists_next (hs : CanStep s) : ∃ t, step s = .next t := by
  cases h : s.mem.fetch s.pc with
  | error e => exact ⟨_, step_of_fetch_error hs h⟩
  | ok r => exact step_of_fetch hs h ▸ dispatchRaw_exists_next r s

theorem not_canStep_iff : ¬CanStep s ↔ s.fault ≠ none ∨ s.stopped = true := by
  rw [CanStep, not_and_or, Bool.not_eq_false, or_comm]

/-- A core that is stopped or faulted has no step (rules R246, R265). -/
theorem step_of_not_canStep (hs : ¬CanStep s) : ∃ f, step s = .fault f := by
  unfold step
  split
  · exact ⟨_, rfl⟩
  · rename_i running
    split
    · exact ⟨_, rfl⟩
    · rename_i healthy
      exact absurd ⟨Bool.eq_false_of_not_eq_true running, healthy⟩ hs

/-! ### The fetch on either side of 0xFFFC -/

/-- The bytes that memory holds from `a` on (20_memory.md rule R53). -/
def Memory.bytesFrom (m : Memory) (a : Word) : List Byte :=
  (List.range (0xFFFF - uval a)).map fun k => m.byteAt (uval a + k)

@[simp] theorem Memory.length_bytesFrom (m : Memory) (a : Word) :
    (m.bytesFrom a).length = 0xFFFF - uval a := by
  simp [Memory.bytesFrom]

theorem Memory.getElem?_bytesFrom (m : Memory) (a : Word) {k : Nat} (hk : k < (m.bytesFrom a).length) :
    (m.bytesFrom a)[k]? = some (m.byteAt (uval a + k)) := by
  rw [Memory.length_bytesFrom] at hk
  simp [Memory.bytesFrom, hk]

theorem Memory.fetch_of_ge {m : Memory} {a : Word} (h : 0xFFFC ≤ uval a) :
    m.fetch a = .error (m.bytesFrom a, 0xFFFF) := by
  obtain ⟨below, -⟩ | ⟨-, hf⟩ := Memory.fetch_cases m a
  · omega
  · exact hf

theorem Memory.fetch_of_lt {m : Memory} {a : Word} (h : uval a < 0xFFFC) :
    m.fetch a = .ok ⟨m.byteAt (uval a), m.byteAt (uval a + 1), m.byteAt (uval a + 2), m.byteAt (uval a + 3)⟩ := by
  obtain ⟨-, hf⟩ | ⟨outside, -⟩ := Memory.fetch_cases m a
  · exact hf
  · omega

end Sys2Proof.Machine
end

section
/-! The obligations of the cycle (40_cycle.md). -/

namespace Sys2Proof

open Sys2Proof.Machine

/-- Settles O8: from 0xFFFC on the fetch fails at 0xFFFF, and below it reads the four bytes. -/
theorem fetchRaisesExactlyFromFFFC : Obligations.FetchRaisesExactlyFromFFFC := by
  refine fun s hs => ⟨fun outside => ?_, fun inside => ?_⟩
  · exact ⟨s.mem.bytesFrom s.pc, s.mem.length_bytesFrom s.pc, fun _ => s.mem.getElem?_bytesFrom s.pc,
      step_of_fetch_error hs (Memory.fetch_of_ge outside)⟩
  · have fetched := Memory.fetch_of_lt (m := s.mem) inside
    exact ⟨_, _, _, _, bytesAtPc_iff_fetch.mpr fetched, rfl, rfl, rfl, rfl, step_of_fetch hs fetched⟩

/-- Settles O10: a core that may run has a next state, and any other answers the fault of its stop or latch. -/
theorem noStepExactlyIfFaultedOrStopped : Obligations.NoStepExactlyIfFaultedOrStopped := by
  intro s
  rw [← not_canStep_iff]
  by_cases hs : CanStep s
  · obtain ⟨t, ht⟩ := step_exists_next hs
    simp [ht, hs]
  · obtain ⟨f, hf⟩ := step_of_not_canStep hs
    simp [hf, hs]

/-- Settles O7: the step decodes the bytes at `pc` and runs the body after the advance. -/
theorem stepRunsTheDecodedInstruction : Obligations.StepRunsTheDecodedInstruction :=
  fun _ _ _ _ _ _ => step_of_decode

end Sys2Proof
end

section
/-! VBLNK's two ways, the frame of the sprite dimensions, and schedules run from the front
(41_display_control.md, 50_agents_and_interfaces.md). -/

namespace Sys2Proof.Machine

variable {s t : State}

/-! ### VBLNK -/

/-- The bits of VBLNK below its opcode are ignored (30_encoding.md rule R87). -/
theorem decode_vblnk (b1 b2 b3 : Byte) : decode ⟨0x02, b1, b2, b3⟩ = .ok .vblnk := rfl

theorem exec_vblnk_of_set (h : s.vblank = true) : exec .vblnk s = .next { s with vblank := false } := if_pos h

theorem exec_vblnk_of_clear (h : s.vblank = false) : exec .vblnk s = .next s.rewind :=
  if_neg (Bool.eq_false_iff.mp h)

/-- The advance undone leaves the state as it was, at every address: both wrap modulo 65,536. -/
@[simp] theorem State.rewind_advance (s : State) : s.advance.rewind = s := by
  simp [State.advance, State.rewind, addrAt]

section Step

variable {b1 b2 b3 : Byte}

/-- A VBLNK that waits (41_display_control.md rule R133). -/
theorem step_vblnk_of_clear (hs : CanStep s) (hb : BytesAtPc s 0x02 b1 b2 b3) (h : s.vblank = false) :
    step s = .next s := by
  rw [step_of_decode hs hb (decode_vblnk b1 b2 b3), exec_vblnk_of_clear (s := s.advance) h, State.rewind_advance]

/-- A VBLNK that completes. -/
theorem step_vblnk_of_set (hs : CanStep s) (hb : BytesAtPc s 0x02 b1 b2 b3) (h : s.vblank = true) :
    step s = .next { s with pc := s.pc + 4, vblank := false } := by
  rw [step_of_decode hs hb (decode_vblnk b1 b2 b3), exec_vblnk_of_set (s := s.advance) h]
  rfl

/-- A VBLNK that waits completes once the latch is set, and leaves the latch as clear as it was. -/
theorem step_setLatch_of_vblnk (hs : CanStep s) (hb : BytesAtPc s 0x02 b1 b2 b3) (h : s.vblank = false) :
    step s.setLatch = .next { s with pc := s.pc + 4 } := by
  rw [step_vblnk_of_set (s := s.setLatch) hs hb rfl, ← h]
  rfl

end Step

/-! ### The sprite dimensions -/

/-- Only SPR writes the sprite dimensions (10_state.md rule R30). -/
theorem exec_dimensions {i : Instr} (h : exec i s = .next t) (hi : ∀ w h, i ≠ .spr w h) :
    t.spritew = s.spritew ∧ t.spriteh = s.spriteh := by
  cases i with
  | spr => exact absurd rfl (hi _ _)
  | drw x y imm => obtain ⟨_, -, rfl⟩ | ⟨_, -, rfl⟩ := exec_drw_cases h <;> exact ⟨rfl, rfl⟩
  | _ => simp at h; subst h; exact ⟨rfl, rfl⟩

/-! ### Schedules -/

section Schedule

variable {y y' : System} {e : Event}

theorem next_cycle (hs : y.machine.stopped = false) (h : step y.machine = .next t) :
    System.next .cycle y = some { y with machine := t } := by
  simp [System.next, hs, h]

theorem run_cons (es : List Event) (h : System.next e y = some y') :
    System.run (e :: es) y = System.run es y' := by
  rw [System.run, h]

/-- The two steps of a display tick (rule R240). -/
theorem run_tick (hs : y.machine.stopped = false) (h : y.phase = .idle) (es : List Event) :
    System.run (.present :: .setLatch :: es) y =
      System.run es { machine := y.machine.setLatch, phase := .idle, shown := some y.machine.fb } := by
  simp [System.run, System.next, hs, h]

/-- An event that leaves the system as it is can be repeated in front of any schedule. -/
theorem run_replicate_append (h : System.next e y = some y) (n : Nat) (es : List Event) :
    System.run (List.replicate n e ++ es) y = System.run es y := by
  induction n with
  | zero => rfl
  | succ n ih => rw [List.replicate_succ, List.cons_append, run_cons _ h, ih]

end Schedule

end Sys2Proof.Machine
end

section
/-! The obligations of display control (41_display_control.md). -/

namespace Sys2Proof

open Sys2Proof.Machine

/-- Settles O15: the body undoes the advance. -/
theorem vblnkWaitLeavesTheWholeState : Obligations.VblnkWaitLeavesTheWholeState :=
  fun _ _ _ _ => step_vblnk_of_clear

/-- Settles O17: SPR's own equation, and the frame of every other body. -/
theorem sprSetsTheDimensionsUntilTheNextSpr : Obligations.SprSetsTheDimensionsUntilTheNextSpr := by
  refine ⟨fun _ _ _ => rfl, fun w h s => ⟨_, exec_spr w h, ?_⟩, fun _ _ _ => exec_dimensions⟩
  exact ⟨rfl, rfl, rfl, fun _ => rfl, rfl, rfl, rfl, rfl, fun _ => rfl, fun _ _ => rfl, rfl, rfl, rfl⟩

/-- Settles O53: the waiting cycles leave the system as it is, and the tick's set-latch lets the next one pass. -/
theorem vblnkPassesAfterTheNextTick : Obligations.VblnkPassesAfterTheNextTick := by
  intro y b1 b2 b3 n hs idle clear hb
  have running : y.machine.stopped = false := hs.1
  have waits : System.next .cycle y = some y := next_cycle running (step_vblnk_of_clear hs hb clear)
  rw [run_replicate_append waits, run_tick running idle]
  exact run_cons _ (next_cycle running (step_setLatch_of_vblnk hs hb clear))

/-- Settles O13: `bg` is 0 when the screen is filled. -/
theorem clsFillsTheScreenWithTransparent : Obligations.ClsFillsTheScreenWithTransparent := by
  refine ⟨fun _ _ _ => rfl, fun s => ⟨_, exec_cls, rfl, rfl, fun _ _ inside => ?_, ?_⟩⟩
  · exact Framebuffer.read_filled inside _
  · exact ⟨rfl, fun _ => rfl, rfl, rfl, rfl, rfl, fun _ => rfl, rfl, rfl, rfl⟩

/-- Settles O14, by the latch. -/
theorem vblnkClearsTheLatchOrRewinds : Obligations.VblnkClearsTheLatchOrRewinds :=
  ⟨decode_vblnk, fun _ => ⟨exec_vblnk_of_set, exec_vblnk_of_clear⟩⟩

/-- Settles O16: the body's equation names `bg` alone. -/
theorem bgcWritesTheBackgroundIndexOnly : Obligations.BgcWritesTheBackgroundIndexOnly := by
  refine ⟨fun _ _ _ => rfl, fun n s => ⟨_, exec_bgc n, rfl, ?_⟩⟩
  exact ⟨rfl, fun _ => rfl, rfl, rfl, rfl, rfl, rfl, fun _ => rfl, fun _ _ => rfl, rfl, rfl, rfl⟩

end Sys2Proof
end

section
/-! DRW: its source bytes, its sprite, and the sprite's index at a position, each tied to the rasterizer
(42_draw.md). -/

namespace Sys2Proof.Machine

/-! ### Plotting a list of pixels -/

section Plots

variable {c : Pixel} {l l' : List SpritePixel} {acc : Framebuffer × Bool}

/-- A transparent pixel does nothing (rule R157). -/
theorem plot_of_transparent {p : SpritePixel} (h : p.idx = 0) : plot c acc p = acc := if_pos h

theorem plots_of_transparent (h : ∀ p ∈ l, p.idx = 0) : l.foldl (plot c) acc = acc := by
  induction l with
  | nil => rfl
  | cons p rest ih =>
    rw [List.foldl_cons, plot_of_transparent (h p List.mem_cons_self)]
    exact ih fun q hq => h q (List.mem_cons_of_mem _ hq)

/-- Pixels at different positions may be plotted in any order: what a cell holds afterwards, and whether there was
a hit, depend only on which pixels there are (rule R162). -/
theorem plots_perm (hfb : acc.1.wf = true) (apart : l.Pairwise SpritePixel.Apart) (perm : l'.Perm l) :
    l'.foldl (plot c) acc = l.foldl (plot c) acc := by
  have apart' : l'.Pairwise SpritePixel.Apart := perm.symm.pairwise apart SpritePixel.Apart.symm
  refine Prod.ext (Framebuffer.ext_of_read (plots_wf _ _ _ hfb) (plots_wf _ _ _ hfb) fun px py => ?_) ?_
  · by_cases hit : ∃ p ∈ l, p.idx ≠ 0 ∧ p.px = px ∧ p.py = py
    · obtain ⟨p, hp, visible, rfl, rfl⟩ := hit
      cases inside : inRange p.px p.py with
      | true =>
        rw [plots_paint _ _ _ hfb apart' (perm.mem_iff.mpr hp) visible inside,
          plots_paint _ _ _ hfb apart hp visible inside]
      | false => rw [Framebuffer.read_of_not_inRange inside, Framebuffer.read_of_not_inRange inside]
    · have miss : ∀ p ∈ l, p.idx ≠ 0 → ¬(p.px = px ∧ p.py = py) :=
        fun p hp visible e => hit ⟨p, hp, visible, e⟩
      rw [plots_miss _ _ _ hfb _ _ fun p hp => miss p (perm.mem_iff.mp hp), plots_miss _ _ _ hfb _ _ miss]
  · rw [Bool.eq_iff_iff, plots_hit _ _ _ hfb apart', plots_hit _ _ _ hfb apart]
    simp only [perm.mem_iff]

end Plots

/-! ### The sprite of a DRW -/

/-- The source bytes of a DRW whose run stays inside memory (rule R152). -/
def State.source (s : State) (imm : Word) : List Byte :=
  (List.range s.spriteBytes).map fun k => s.mem.byteAt (uval imm + k)

/-- The pixels of that DRW at column `X` and row `Y` (rule R150). -/
def State.sprite (s : State) (imm : Word) (X Y : Int) : List SpritePixel :=
  spritePixels s.spritew.toNat s.spriteh.toNat X Y (s.source imm)

section Sprite

variable {s : State} {imm : Word} {X Y : Int}

theorem State.getD_source {k : Nat} (h : k < s.spriteBytes) :
    (s.source imm).getD k 0 = s.mem.byteAt (uval imm + k) := by
  simp [State.source, List.getD, h]

/-- Byte `i` of row `r` is one of the source bytes (rule R153). -/
theorem State.offset_lt_spriteBytes {r i : Nat} (hr : r < s.spriteh.toNat) (hi : i < s.spritew.toNat) :
    r * s.spritew.toNat + i < s.spriteBytes :=
  calc r * s.spritew.toNat + i
    _ < (r + 1) * s.spritew.toNat := by rw [Nat.succ_mul]; omega
    _ ≤ s.spriteh.toNat * s.spritew.toNat := Nat.mul_le_mul_right _ hr
    _ = s.spriteBytes := Nat.mul_comm _ _

/-- The sprite's pixels come two by two from the bytes of its rows in memory. -/
theorem State.mem_sprite {p : SpritePixel} :
    p ∈ s.sprite imm X Y ↔ ∃ r < s.spriteh.toNat, ∃ i < s.spritew.toNat,
      p ∈ bytePixels X Y r i (s.mem.byteAt (uval imm + (r * s.spritew.toNat + i))) := by
  rw [State.sprite, mem_spritePixels]
  refine exists_congr fun r => and_congr_right fun hr => exists_congr fun i => and_congr_right fun hi => ?_
  rw [State.getD_source (State.offset_lt_spriteBytes hr hi)]

/-- Every pixel of the sprite has the index `spriteIndex` gives its position. -/
theorem State.spriteIndex_of_mem_sprite {p : SpritePixel} (h : p ∈ s.sprite imm X Y) :
    spriteIndex s X Y imm p.px p.py = p.idx := by
  obtain ⟨r, hr, i, hi, hp⟩ := State.mem_sprite.mp h
  have row : (Y + r - Y).toNat = r := by omega
  obtain rfl | rfl := mem_bytePixels.mp hp
  · have column : (X + 2 * i - X).toNat = 2 * i := by omega
    simp only [spriteIndex, row, column]
    rw [if_pos (by omega), if_pos (by omega), Nat.mul_div_cancel_left i two_pos]
  · have column : (X + 2 * i + 1 - X).toNat = 2 * i + 1 := by omega
    simp only [spriteIndex, row, column]
    rw [if_pos (by omega), if_neg (by omega), show (2 * i + 1) / 2 = i by omega]

/-- Where `spriteIndex` is not 0, the sprite has a pixel. -/
theorem State.mem_sprite_of_spriteIndex {px py : Int} (h : spriteIndex s X Y imm px py ≠ 0) :
    ⟨px, py, spriteIndex s X Y imm px py⟩ ∈ s.sprite imm X Y := by
  by_cases reached : 0 ≤ px - X ∧ px - X < 2 * s.spritew.toNat ∧ 0 ≤ py - Y ∧ py - Y < s.spriteh.toNat
  · refine State.mem_sprite.mpr ⟨(py - Y).toNat, by omega, (px - X).toNat / 2, by omega, mem_bytePixels.mpr ?_⟩
    simp only [spriteIndex, if_pos reached, SpritePixel.mk.injEq]
    by_cases even : (px - X).toNat % 2 = 0
    · exact .inl ⟨by omega, by omega, if_pos even⟩
    · exact .inr ⟨by omega, by omega, if_neg even⟩
  · exact absurd (if_neg reached) h

/-- The cells after the sprite: its colour where it is visible, and elsewhere what they held. -/
theorem State.read_draw {x y : Reg} (hfb : s.fb.wf = true) (px py : Int) :
    (s.draw x y (s.source imm)).fb.read px py =
      if inRange px py = true ∧ spriteIndex s (s.readCoord x) (s.readCoord y) imm px py ≠ 0 then
        some (Config.palette (spriteIndex s (s.readCoord x) (s.readCoord y) imm px py))
      else s.fb.read px py := by
  split <;> rename_i visible
  · obtain ⟨inside, nonzero⟩ := visible
    exact plots_paint _ _ (s.fb, false) hfb (spritePixels_apart _ _ _ _ _)
      (State.mem_sprite_of_spriteIndex nonzero) nonzero inside
  · cases inside : inRange px py with
    | false => rw [Framebuffer.read_of_not_inRange inside, Framebuffer.read_of_not_inRange inside]
    | true =>
      refine plots_miss _ _ (s.fb, false) hfb _ _ ?_
      rintro p hp nonzero ⟨rfl, rfl⟩
      exact visible ⟨inside, (State.spriteIndex_of_mem_sprite hp).trans_ne nonzero⟩

/-- Carry after the sprite (rule R160). -/
theorem State.draw_carry {x y : Reg} (hfb : s.fb.wf = true) :
    (s.draw x y (s.source imm)).flags.c = true ↔ ∃ px py, inRange px py = true ∧
      spriteIndex s (s.readCoord x) (s.readCoord y) imm px py ≠ 0 ∧
      s.fb.read px py ≠ some (Config.palette s.bg) := by
  refine (plots_hit _ _ (s.fb, false) hfb (spritePixels_apart _ _ _ _ _)).trans ⟨?_, ?_⟩
  · rintro (no | ⟨p, hp, nonzero, inside, differs⟩)
    · cases no
    · exact ⟨p.px, p.py, inside, (State.spriteIndex_of_mem_sprite hp).trans_ne nonzero, differs⟩
  · rintro ⟨px, py, inside, nonzero, differs⟩
    exact .inr ⟨_, State.mem_sprite_of_spriteIndex nonzero, nonzero, inside, differs⟩

/-- A sprite of zero bytes is transparent. -/
theorem State.sprite_transparent (h : ∀ k, k < s.spriteBytes → s.mem.byteAt (uval imm + k) = 0) :
    ∀ p ∈ s.sprite imm X Y, p.idx = 0 := by
  intro p hp
  obtain ⟨r, hr, i, hi, hp⟩ := State.mem_sprite.mp hp
  rw [h _ (State.offset_lt_spriteBytes hr hi)] at hp
  obtain rfl | rfl := mem_bytePixels.mp hp <;> rfl

/-- A transparent sprite clears Carry and draws nothing. -/
theorem State.draw_of_transparent {x y : Reg}
    (h : ∀ p ∈ s.sprite imm (s.readCoord x) (s.readCoord y), p.idx = 0) :
    s.draw x y (s.source imm) = { s with flags := { s.flags with c := false } } := by
  have unchanged : rasterize (s.source imm) s.spritew.toNat s.spriteh.toNat (s.readCoord x) (s.readCoord y) s.bg
      s.fb = (s.fb, false) := plots_of_transparent h
  simp only [State.draw, unchanged]

/-! ### The body -/

/-- A DRW whose source bytes exist draws them (rule R152). -/
theorem exec_drw_of_le {x y : Reg} (h : s.spriteBytes = 0 ∨ uval imm + s.spriteBytes ≤ Config.memSize) :
    exec (.drw x y imm) s = .next (s.draw x y (s.source imm)) := by
  obtain ⟨read, -⟩ | ⟨-, _, _⟩ := Memory.readRun_cases s.mem imm s.spriteBytes
  · exact exec_drw_of_ok read
  · omega

end Sprite

end Sys2Proof.Machine
end

section
/-! The obligations of DRW (42_draw.md). -/

namespace Sys2Proof

open Sys2Proof.Machine

/-- Settles O18: a visible pixel paints its cell, and no pixel touches any other. -/
theorem drwPaintsExactlyTheSprite : Obligations.DrwPaintsExactlyTheSprite := by
  intro x y imm s hfb fits
  refine ⟨_, exec_drw_of_le fits, State.read_draw hfb, ?_⟩
  exact ⟨rfl, fun _ => rfl, rfl, rfl, rfl, ⟨rfl, rfl, rfl, rfl, rfl⟩, fun _ => rfl, rfl, rfl, rfl⟩

/-- Settles O19: the pixels land on different cells, so each meets the cell as it was before the DRW. -/
theorem drwCarryReportsTheCollision : Obligations.DrwCarryReportsTheCollision :=
  fun _ _ _ _ hfb fits => ⟨_, exec_drw_of_le fits, State.draw_carry hfb⟩

/-- Settles O20: the run of reads fails before anything is drawn. -/
theorem drwOutOfBoundsRaisesWithNoEffect : Obligations.DrwOutOfBoundsRaisesWithNoEffect :=
  fun _ _ _ _ someBytes beyond => exec_drw_of_error (Memory.readRun_of_lt someBytes beyond)

/-- Settles O21: the pixels of a sprite lie at different positions. -/
theorem pixelOrderIsUnobservable : Obligations.PixelOrderIsUnobservable :=
  fun _ _ _ _ _ _ _ _ hfb perm => plots_perm hfb (spritePixels_apart _ _ _ _ _) perm

/-- Settles O22: every pixel of the sprite has index 0. -/
theorem transparentPixelsDoNothing : Obligations.TransparentPixelsDoNothing := by
  refine ⟨fun _ _ _ => plot_of_transparent, fun x y imm s fits zero => ?_⟩
  rw [exec_drw_of_le fits, State.draw_of_transparent (State.sprite_transparent zero)]

end Sys2Proof
end

section
/-! The jumps: their encodings, the frame they share, and the step of a JMP (43_jumps.md). -/

namespace Sys2Proof.Machine

/-! ### The encodings -/

/-- The operand byte of JMP is ignored (30_encoding.md rule R87). -/
theorem decode_jmp (b1 b2 b3 : Byte) : decode ⟨0x10, b1, b2, b3⟩ = .ok (.jmp (b3 ++ b2)) := rfl

/-- Selector 0 is JZ, whatever the high nibble (30_encoding.md rule R91). -/
theorem decode_jz (y : Nibble) (b2 b3 : Byte) :
    decode ⟨0x12, operandByte 0x0 y, b2, b3⟩ = .ok (.jz (b3 ++ b2)) := by
  rw [decode_of_jcc rfl, decodeJcc, RawInstr.x_operandByte, if_pos rfl, RawInstr.imm]

/-- Selector 9 is JC, whatever the high nibble. -/
theorem decode_jc (y : Nibble) (b2 b3 : Byte) :
    decode ⟨0x12, operandByte 0x9 y, b2, b3⟩ = .ok (.jc (b3 ++ b2)) := by
  rw [decode_of_jcc rfl, decodeJcc, RawInstr.x_operandByte, if_neg (by decide), if_pos rfl, RawInstr.imm]

/-! ### The bodies -/

/-- What a write of `pc` leaves unchanged, which is what every jump does, taken or not (rule R188). -/
theorem setPc_frame (s : State) (p : Word) :
    let t := { s with pc := p }
    SameRegs s t ∧ t.flags = s.flags ∧ SameDisplay s t ∧ SameMemory s t ∧ SameScreen s t ∧ SameRest s t :=
  ⟨fun _ => rfl, rfl, ⟨rfl, rfl, rfl, rfl, rfl⟩, fun _ => rfl, fun _ _ => rfl, rfl, rfl, rfl⟩

/-! ### The steps -/

section Step

variable {s t : State}

/-- A fetch from 0xFFFC on raises at the one address that has no byte (40_cycle.md rule R112). -/
theorem step_of_pc_ge (hs : CanStep s) (h : 0xFFFC ≤ uval s.pc) :
    step s = .next (s.raise s.pc (s.mem.bytesFrom s.pc) (.memoryBounds 0xFFFF)) :=
  step_of_fetch_error hs (Memory.fetch_of_ge h)

theorem step_jmp {b1 b2 b3 : Byte} (hs : CanStep s) (hb : BytesAtPc s 0x10 b1 b2 b3) :
    step s = .next { s with pc := b3 ++ b2 } := by
  rw [step_of_decode hs hb (decode_jmp b1 b2 b3), exec_jmp]
  rfl

/-- The target of a JMP to itself undoes the advance. -/
theorem step_jmp_self {b1 : Byte} (hs : CanStep s) (hb : BytesAtPc s 0x10 b1 (lowByte s.pc) (highByte s.pc)) :
    step s = .next s := by
  rw [step_jmp hs hb, highByte_append_lowByte]

/-- A run from a state that steps to itself goes nowhere else. -/
theorem reaches_of_step_self (h : step s = .next s) (hr : Reaches s t) : t = s := by
  refine reaches_induction (P := (· = s)) rfl ?_ hr
  rintro _ u rfl hu
  exact (Host.Outcome.next.inj (h.symm.trans hu)).symm

end Step

end Sys2Proof.Machine
end

section
/-! The obligations of the jumps (43_jumps.md). -/

namespace Sys2Proof

open Sys2Proof.Machine

/-- Settles O23: the body takes any target, and the fetch of the next step raises at one from 0xFFFC on. -/
theorem jmpSetsPcToAnyTarget : Obligations.JmpSetsPcToAnyTarget := by
  refine ⟨decode_jmp, fun imm s => ⟨_, exec_jmp imm, rfl, ?_⟩⟩
  obtain ⟨regs, flags, display, memory, screen, rest⟩ := setPc_frame s imm
  refine ⟨regs, flags, display, memory, screen, rest, fun hs beyond => ?_⟩
  have next : CanStep { s with pc := imm } := hs
  exact ⟨_, _, step_of_pc_ge next beyond, rfl, rfl⟩

/-- Settles O49, by induction over the run: its first step answers the state itself. -/
theorem jumpToItselfRestsForEver : Obligations.JumpToItselfRestsForEver := by
  intro s b1 hs hb
  have rests : step s = .next s := step_jmp_self hs hb
  have stays (t : State) (hr : Reaches s t) : t = s := reaches_of_step_self rests hr
  obtain ⟨-, safe⟩ := hs
  exact ⟨rests, fun t hr => stays t hr ▸ safe, stays⟩

/-- Settles O24: selector 0 with any high nibble, and the body's equation. -/
theorem jzJumpsExactlyOnZero : Obligations.JzJumpsExactlyOnZero :=
  ⟨decode_jz, fun imm s => ⟨_, exec_jz imm, rfl, setPc_frame s _⟩⟩

/-- Settles O25: selector 9 with any high nibble, and the body's equation. -/
theorem jcJumpsExactlyOnCarry : Obligations.JcJumpsExactlyOnCarry :=
  ⟨decode_jc, fun imm s => ⟨_, exec_jc imm, rfl, setPc_frame s _⟩⟩

/-- Settles O26: the signed comparison is the body's comparison of all 16 bits. -/
theorem jmeJumpsExactlyOnEqualRegisters : Obligations.JmeJumpsExactlyOnEqualRegisters := by
  refine ⟨fun _ _ _ => rfl, fun x y imm s => ⟨_, exec_jme x y imm, ?_, ?_, sval_inj, ?_, setPc_frame s _⟩⟩
  · exact fun equal => if_pos (sval_inj.mp equal)
  · exact fun different => if_neg (mt sval_inj.mpr different)
  · rintro rfl
    exact if_pos rfl

end Sys2Proof
end

section
/-! The frame of a register write, which the moves share (44_moves.md). -/

namespace Sys2Proof.Machine

/-- The destination holds the value written, and no flag and nothing else changes, which is what both moves do
(rule R198). -/
theorem writeReg_frame (s : State) (x : Reg) (v : Word) :
    let t := s.writeReg x v
    t.readReg x = v ∧ SameRegsBut x s t ∧ t.pc = s.pc ∧ t.flags = s.flags ∧
      SameDisplay s t ∧ SameMemory s t ∧ SameScreen s t ∧ SameRest s t := by
  have written : (s.writeReg x v).readReg x = v := by rw [State.readReg_writeReg, if_pos rfl]
  have others : SameRegsBut x s (s.writeReg x v) := fun j hj => by rw [State.readReg_writeReg, if_neg hj]
  exact ⟨written, others, rfl, rfl, ⟨rfl, rfl, rfl, rfl, rfl⟩, fun _ => rfl, fun _ _ => rfl, rfl, rfl, rfl⟩

end Sys2Proof.Machine
end

section
/-! The obligations of the moves (44_moves.md). -/

namespace Sys2Proof

open Sys2Proof.Machine

/-- Settles O27: the body writes its field to the destination. -/
theorem ldiLoadsTheField : Obligations.LdiLoadsTheField :=
  ⟨fun _ _ _ => rfl, fun x imm s => ⟨_, exec_ldi x imm, writeReg_frame s x imm⟩⟩

/-- Settles O28: the body writes the source, read before the write, to the destination. -/
theorem movCopiesTheRegister : Obligations.MovCopiesTheRegister :=
  ⟨fun _ _ _ => rfl, fun x y s => ⟨_, exec_mov x y, writeReg_frame s x (s.readReg y)⟩⟩

end Sys2Proof
end

section
/-! Sign and range of a wrapped number, the flags by either, and what the write of a result leaves unchanged
(45_arithmetic_flags.md). -/

namespace Sys2Proof.Machine

/-! ### Overflow by signs and by range -/

/-- Two values have the same top bit exactly if their signed readings have the same sign. -/
theorem msb_eq_msb_iff (v w : Word) : v.msb = w.msb ↔ (sval v < 0 ↔ sval w < 0) := by
  rw [Bool.eq_iff_iff, msb_iff_sval_neg, msb_iff_sval_neg]

/-- A sum or a difference of signed readings lies between these bounds; there wrapping keeps the sign exactly
inside the 16-bit range (00_scope.md rule R9). -/
theorem sval_wrap16_sign_iff {n : Int} (lower : -65536 ≤ n) (upper : n ≤ 65535) :
    (sval (wrap16 n) < 0 ↔ n < 0) ↔ -32768 ≤ n ∧ n ≤ 32767 := by
  obtain ⟨k, wrapped⟩ := sval_wrap16 n
  obtain ⟨low, high⟩ := sval_bounds (wrap16 n)
  omega

/-- Operands of different signs have a sum in range, so the sign of the result decides only where they agree
(rule R207). -/
theorem addflags_o_iff_outOfRange (p q : Word) :
    (addflags p q).2.o = true ↔ sval p + sval q < -32768 ∨ 32767 < sval p + sval q := by
  obtain ⟨lowP, highP⟩ := sval_bounds p
  obtain ⟨lowQ, highQ⟩ := sval_bounds q
  have sign := sval_wrap16_sign_iff (n := sval p + sval q) (by omega) (by omega)
  rw [addflags_o, ne_eq, msb_eq_msb_iff, msb_eq_msb_iff, addflags_result]
  omega

/-- Operands of the same sign have a difference in range, so the sign of the result decides only where they
differ (rule R208). -/
theorem subflags_o_iff_signs (m u : Word) :
    (subflags m u).2.o = true ↔ m.msb ≠ u.msb ∧ (subflags m u).1.msb ≠ m.msb := by
  obtain ⟨lowM, highM⟩ := sval_bounds m
  obtain ⟨lowU, highU⟩ := sval_bounds u
  have sign := sval_wrap16_sign_iff (n := sval m - sval u) (by omega) (by omega)
  rw [subflags_o, ne_eq, ne_eq, msb_eq_msb_iff, msb_eq_msb_iff, subflags_result]
  omega

/-! ### Carry against the unsigned borrow -/

/-- The signed comparison is the unsigned one, reversed where the signs differ (rule R210). -/
theorem subflags_c_eq (m u : Word) : (subflags m u).2.c = ((m.msb != u.msb) ^^ decide (uval m < uval u)) :=
  BitVec.slt_eq_ult

/-! ### The write of a result -/

theorem readReg_writeResult_self (s : State) (d : Reg) (rf : Word × Flags) :
    (s.writeResult d rf).readReg d = rf.1 := by
  rw [State.readReg_writeResult, if_pos rfl]

/-- The destination holds the result, the flags are those of the result, and nothing else changes, which is what
every arithmetic body does (rule R205). -/
theorem writeResult_frame (s : State) (d : Reg) (rf : Word × Flags) :
    let t := s.writeResult d rf
    t.readReg d = rf.1 ∧ t.flags = rf.2 ∧ SameRegsBut d s t ∧ t.pc = s.pc ∧
      SameDisplay s t ∧ SameMemory s t ∧ SameScreen s t ∧ SameRest s t := by
  obtain ⟨-, others, pc, -, frame⟩ := writeReg_frame s d rf.1
  exact ⟨readReg_writeResult_self s d rf, rfl, others, pc, frame⟩

/-! ### The bodies -/

section Bodies

variable {s t : State}

/-- An arithmetic body writes to its destination what one of the two flag updates gives. -/
theorem exec_arithmetic_cases {i : Instr} {d : Reg} (hi : isArithmetic i = true) (hd : destReg i = some d)
    (h : exec i s = .next t) :
    (∃ p q, t = s.writeResult d (addflags p q)) ∨ ∃ m u, t = s.writeResult d (subflags m u) := by
  cases i with
  | add x y => cases hd; cases h; exact .inl ⟨_, _, rfl⟩
  | subi | sub | sub3 => cases hd; cases h; exact .inr ⟨_, _, rfl⟩
  | _ => cases hi

theorem exec_jc_of_carry (imm : Word) (h : s.flags.c = true) : exec (.jc imm) s = .next { s with pc := imm } := by
  rw [exec_jc, if_pos h]

end Bodies

end Sys2Proof.Machine
end

section
/-! The obligations of arithmetic and flags (45_arithmetic_flags.md). -/

namespace Sys2Proof

open Sys2Proof.Machine

/-- Settles O29: the flag update of the operands, and the frame of its write. -/
theorem addWritesTheWrappedSumAndFlags : Obligations.AddWritesTheWrappedSumAndFlags := by
  refine ⟨fun _ _ _ => rfl, fun x y s => ⟨_, exec_add x y, ?_⟩⟩
  obtain ⟨result, flags, frame⟩ := writeResult_frame s x (addflags (s.readReg x) (s.readReg y))
  rw [result, flags]
  exact ⟨sval_wrap16 _, addflags_c _ _, addflags_z _ _, addflags_o_iff_outOfRange _ _, addflags_n _ _, frame⟩

/-- Settles O30: the update sets the flag by signs, which is the same as by range. -/
theorem addOverflowBySignsIsOutOfRange : Obligations.AddOverflowBySignsIsOutOfRange := by
  refine fun x y s => ⟨_, exec_add x y, ?_⟩
  rw [readReg_writeResult_self]
  exact ⟨addflags_o _ _, addflags_o_iff_outOfRange _ _⟩

/-- Settles O31: both flag updates set the two flags from the result that the destination then holds. -/
theorem zeroAndNegativeFollowTheResult : Obligations.ZeroAndNegativeFollowTheResult := by
  intro i s t d hi hd h
  obtain ⟨p, q, rfl⟩ | ⟨m, u, rfl⟩ := exec_arithmetic_cases hi hd h <;> rw [readReg_writeResult_self]
  · exact ⟨addflags_z p q, addflags_n p q⟩
  · exact ⟨subflags_z m u, subflags_n m u⟩

/-- Settles O32: the body answers, and what it answers is the same for all flags. -/
theorem arithmeticKeepsNoEarlierFlag : Obligations.ArithmeticKeepsNoEarlierFlag := by
  intro i s f hi
  obtain ⟨t, ht⟩ := exec_exists_next i s
  exact ⟨t, ht, (exec_setFlags_of_arithmetic s f hi).trans ht⟩

/-- Settles O33: the three forms run one flag update, on their own operands. -/
theorem subtractionsWriteTheWrappedDifferenceAndFlags :
    Obligations.SubtractionsWriteTheWrappedDifferenceAndFlags := by
  refine ⟨fun _ _ _ => rfl, fun _ _ _ => rfl, fun _ _ _ => rfl, fun i s d m u form => ?_⟩
  have runs : exec i s = .next (s.writeResult d (subflags m u)) := by
    obtain ⟨x, imm, rfl, rfl, rfl, rfl⟩ | ⟨x, y, rfl, rfl, rfl, rfl⟩ | ⟨x, y, z, rfl, rfl, rfl, rfl⟩ := form
    · exact exec_subi _ _
    · exact exec_sub _ _
    · exact exec_sub3 _ _ _
  refine ⟨_, runs, ?_⟩
  obtain ⟨result, flags, frame⟩ := writeResult_frame s d (subflags m u)
  rw [result, flags]
  exact ⟨sval_wrap16 _, subflags_c _ _, subflags_z _ _, subflags_o _ _, subflags_n _ _, frame⟩

/-- Settles O35: the flag update sets the flag by range, which is the same as by signs. -/
theorem subOverflowBySigns : Obligations.SubOverflowBySigns := subflags_o_iff_signs

/-- Settles O36: the signed comparison against the unsigned one. -/
theorem subCarryIsTheBorrowIfSignsAgree : Obligations.SubCarryIsTheBorrowIfSignsAgree := by
  refine fun m u => ⟨fun agree => ?_, fun differ => ?_⟩
  · rw [subflags_c_eq, agree, bne_self_eq_false, Bool.false_xor, decide_eq_true_iff]
  · rw [subflags_c_eq, bne_iff_ne.mpr differ, Bool.true_xor, Bool.not_eq_true', decide_eq_false_iff_not]

/-- Settles O34: the three bodies run one flag update on the same operands. -/
theorem subtractionVariantsAgree : Obligations.SubtractionVariantsAgree := by
  intro x y z s
  obtain ⟨-, -, others, -⟩ := writeResult_frame s z (subflags (s.readReg x) (s.readReg y))
  refine ⟨_, _, _, exec_sub x y, exec_sub3 x y z, exec_subi x _, rfl, rfl, ?_, rfl, ?_, ?_⟩
  · rw [readReg_writeResult_self, readReg_writeResult_self]
  · exact fun hx => others x hx.symm
  · exact fun hy => others y hy.symm

/-- Settles O37: an ADD always sets Carry (rule R213). -/
theorem jcAfterAddAlwaysJumps : Obligations.JcAfterAddAlwaysJumps :=
  fun x y imm _ => ⟨_, exec_add x y, exec_jc_of_carry imm (addflags_c _ _)⟩

end Sys2Proof
end

section
/-! The events one by one: the display agent's two steps and the host's stop (50_agents_and_interfaces.md). -/

namespace Sys2Proof.Machine

variable {y y' : System}

/-- A present shows the framebuffer and leaves the machine as it is (rule R238). -/
theorem next_present (h : System.next .present y = some y') :
    y.phase = .idle ∧ y' = { y with phase := .presented, shown := some y.machine.fb } := by
  obtain ⟨-, ⟨⟨⟩, -⟩ | ⟨-, presents⟩ | ⟨⟨⟩, -⟩ | ⟨⟨⟩, -⟩⟩ := next_cases h
  exact presents

/-- A set-latch ends the tick that a present began (rules R239, R240). -/
theorem next_setLatch (h : System.next .setLatch y = some y') :
    y.phase = .presented ∧ y' = { y with machine := y.machine.setLatch, phase := .idle } := by
  obtain ⟨-, ⟨⟨⟩, -⟩ | ⟨⟨⟩, -⟩ | ⟨-, sets⟩ | ⟨⟨⟩, -⟩⟩ := next_cases h
  exact sets

theorem next_stop (h : System.next .stop y = some y') : y' = { y with machine := y.machine.stop } := by
  obtain ⟨-, ⟨⟨⟩, -⟩ | ⟨⟨⟩, -⟩ | ⟨⟨⟩, -⟩ | ⟨-, stops⟩⟩ := next_cases h
  exact stops

/-- The stop is looked at before the event (rule R246). -/
theorem next_of_stopped (e : Event) (h : y.machine.stopped = true) : System.next e y = none := if_pos h

end Sys2Proof.Machine
end

section
/-! The obligations of the agents (50_agents_and_interfaces.md). -/

namespace Sys2Proof

open Sys2Proof.Machine

/-- Settles O52: the inversions of the display agent's two events. -/
theorem displayStepsTouchOnlyTheLatch : Obligations.DisplayStepsTouchOnlyTheLatch :=
  fun _ _ => ⟨next_present, next_setLatch⟩

/-- Settles O56: the inversion of the stop, and that no event is left to a stopped machine. -/
theorem stopFreezesTheSystem : Obligations.StopFreezesTheSystem :=
  ⟨fun _ _ => next_stop, fun e _ => next_of_stopped e⟩

end Sys2Proof
end

section
/-! The step that raises: the record it leaves, held to memory (60_exceptions.md). -/

namespace Sys2Proof.Machine

/-- The bytes are those in memory from `a` on (60_exceptions.md rule R262). -/
def Memory.Holds (m : Memory) (a : Word) (bs : List Byte) : Prop :=
  ∀ k, k < bs.length → ∃ b, bs[k]? = some b ∧ m.read (addrAt a k) = .ok b

theorem Memory.holds_bytesFrom (m : Memory) (a : Word) : m.Holds a (m.bytesFrom a) := by
  intro k hk
  refine ⟨_, m.getElem?_bytesFrom a hk, ?_⟩
  rw [Memory.length_bytesFrom] at hk
  have address : uval (addrAt a k) = uval a + k := by rw [uval_addrAt]; omega
  rw [← address]
  exact Memory.read_of_lt (by rw [address, Config.memSize]; omega)

/-- A fetch fails only at 0xFFFF, after the bytes that memory holds before it. -/
theorem Memory.fetch_eq_error {m : Memory} {a bad : Word} {bs : List Byte} (h : m.fetch a = .error (bs, bad)) :
    bs = m.bytesFrom a ∧ bad = 0xFFFF := by
  by_cases inside : uval a < 0xFFFC
  · cases (Memory.fetch_of_lt inside).symm.trans h
  · cases (Memory.fetch_of_ge (not_lt.mp inside)).symm.trans h
    exact ⟨rfl, rfl⟩

variable {s t : State}

theorem holds_of_bytesAtPc {b0 b1 b2 b3 : Byte} (h : BytesAtPc s b0 b1 b2 b3) :
    s.mem.Holds s.pc [b0, b1, b2, b3] := by
  obtain ⟨h0, h1, h2, h3⟩ := h
  rintro (_ | _ | _ | _ | k) hk
  · exact ⟨b0, rfl, by simpa [addrAt] using h0⟩
  · exact ⟨b1, rfl, h1⟩
  · exact ⟨b2, rfl, h2⟩
  · exact ⟨b3, rfl, h3⟩
  · exact absurd hk (Nat.not_lt.mpr (Nat.le_add_left 4 k))

/-- DRW ignores no bit, so its encoding is the word it was decoded from (30_encoding.md rule R90). -/
theorem encode_of_decode_drw {r : RawInstr} {x y : Reg} {imm : Word} (h : decode r = .ok (.drw x y imm)) :
    encode (.drw x y imm) = r := by
  obtain ⟨-, used⟩ := readAs_of_decode h
  have ignoresNothing : (Instr.drw x y imm).row.ignored = 0#32 := rfl
  rw [ignoresNothing, BitVec.not_zero, BitVec.and_allOnes] at used
  exact RawInstr.toTableWord_injective used.symm

/-- A record of a memory-bounds fault is justified by the one address that has no byte (rule R263). -/
theorem recordJustified_memoryBounds (a : Word) (bs : List Byte) :
    RecordJustified ⟨.memoryBounds 0xFFFF, a, bs⟩ :=
  (by decide : Config.memSize ≤ uval 0xFFFF)

/-- The latch is raised for the instruction at `pc`, with its bytes and a justified cause, before or after the
advance, and nothing else is done (rules R262, R266). -/
theorem step_raises {r : FaultRecord} (h : step s = .next t) (hr : t.fault = some r) :
    r.addr = s.pc ∧ (t = { s with fault := some r } ∨ t = { s with pc := s.pc + 4, fault := some r }) ∧
      RecordJustified r ∧ s.mem.Holds s.pc r.bytes := by
  obtain ⟨bs, bad, hf, rfl⟩ | ⟨b0, b1, b2, b3, e, hb, hd, rfl⟩ | ⟨b0, b1, b2, b3, i, hb, hd, hi⟩ := step_cases h
  · obtain ⟨rfl, rfl⟩ := Memory.fetch_eq_error hf
    cases hr
    exact ⟨rfl, .inl rfl, recordJustified_memoryBounds _ _, s.mem.holds_bytesFrom s.pc⟩
  · cases hr
    exact ⟨rfl, .inr rfl, recordJustified_of_decode_error s.pc hd, holds_of_bytesAtPc hb⟩
  · obtain quiet | ⟨x, y, imm, rfl, rfl⟩ := exec_fault hi
    · obtain ⟨⟨-, running⟩, -⟩ := step_next h
      cases (running.symm.trans quiet.symm).trans hr
    · rw [encode_of_decode_drw hd, State.bodyAddr_advance] at hr ⊢
      cases hr
      exact ⟨rfl, .inr rfl, recordJustified_memoryBounds _ _, holds_of_bytesAtPc hb⟩

end Sys2Proof.Machine
end

section
/-! The obligations of the faults (60_exceptions.md). -/

namespace Sys2Proof

open Sys2Proof.Machine

/-- Settles O11: the fetch raises before the advance, the decoding and DRW after it, each with the bytes that
the fetch read. -/
theorem raiseIsPrecise : Obligations.RaiseIsPrecise := by
  intro s t r _ h hr
  obtain ⟨names, rfl | rfl, justified, held⟩ := step_raises h hr
  · exact ⟨names, .inl rfl, rfl, justified, held⟩
  · exact ⟨names, .inr rfl, rfl, justified, held⟩

/-- Settles O12: every body answers a next state, and only DRW's writes the latch. -/
theorem onlyDrawRaisesInItsBody : Obligations.OnlyDrawRaisesInItsBody := by
  intro i s notDraw
  obtain ⟨t, ht⟩ := exec_exists_next i s
  obtain kept | ⟨x, y, imm, isDraw, -⟩ := exec_fault ht
  · exact ⟨t, ht, kept⟩
  · exact absurd isDraw (notDraw x y imm)

end Sys2Proof
end

section
/-! The load of a cartridge file, whose header stands in front of the rest (50_agents_and_interfaces.md). -/

namespace Sys2Proof.Machine

/-- The four bytes of the header's declared size, the low one first (rule R244). -/
theorem littleEndian_four (z0 z1 z2 z3 : Byte) :
    littleEndian [z0, z1, z2, z3] =
      z0.toNat + 256 * z1.toNat + 65536 * z2.toNat + 16777216 * z3.toNat := by
  simp only [littleEndian]
  omega

/-- A file that gives no cartridge is refused (rule R243). -/
theorem loadCartridge_of_none {file : List Byte} (h : readCartridge file = none) :
    loadCartridge file = .refused .cartridgeTruncated := by
  rw [loadCartridge, h]

/-- A file that gives a cartridge launches it (rule R243). -/
theorem loadCartridge_of_some {file : List Byte} {c : Cartridge} (h : readCartridge file = some c) :
    loadCartridge file = launch c.image c.start := by
  rw [loadCartridge, h]

/-- What a file gives, whose header holds this declared size and this start address: the rest cut at the size,
if it is that long (rule R244). -/
theorem readCartridge_of_header {magic check : List Byte} (hmagic : magic.length = 4)
    (hcheck : check.length = 4) (reserved version z0 z1 z2 z3 lo hi : Byte) (rest : List Byte) :
    readCartridge (magic ++ [reserved, version, z0, z1, z2, z3, lo, hi] ++ check ++ rest) =
      if littleEndian [z0, z1, z2, z3] ≤ rest.length then
        some { image := rest.take (littleEndian [z0, z1, z2, z3]), start := hi ++ lo }
      else none := by
  obtain ⟨m0, m1, m2, m3, rfl⟩ := List.length_eq_four.mp hmagic
  obtain ⟨c0, c1, c2, c3, rfl⟩ := List.length_eq_four.mp hcheck
  exact readCartridge_append m0 m1 m2 m3 reserved version z0 z1 z2 z3 lo hi c0 c1 c2 c3 rest

end Sys2Proof.Machine
end

section
/-! The obligation of the load (70_reset_and_hazards.md). -/

namespace Sys2Proof

open Sys2Proof.Machine

/-- Settles O57: a file whose payload is all there is the launch of that payload, so O58 says what memory
holds; a shorter one gives no cartridge. -/
theorem loadPlacesThePayloadAtZero : Obligations.LoadPlacesThePayloadAtZero := by
  refine ⟨fun file short => loadCartridge_of_none (readCartridge_of_short short), ?_⟩
  rintro magic reserved version z0 z1 z2 z3 lo hi check rest file size hmagic hcheck hsize rfl
  have given := readCartridge_of_header hmagic hcheck reserved version z0 z1 z2 z3 lo hi rest
  rw [littleEndian_four, ← hsize] at given
  have length (whole : size ≤ rest.length) : (rest.take size).length = size :=
    List.length_take_of_le whole
  obtain ⟨fits, tooLong⟩ := launchStateIsResetWithTheImage (rest.take size) (hi ++ lo)
  refine ⟨fun cut => ?_, fun whole long => ?_, fun whole fit => ?_⟩
  · exact loadCartridge_of_none (given.trans (if_neg (by omega)))
  · rw [loadCartridge_of_some (given.trans (if_pos whole))]
    exact tooLong (by rwa [length whole])
  · rw [length whole] at fits
    rw [loadCartridge_of_some (given.trans (if_pos whole))]
    obtain ⟨t, launched, -, -, placed, zeros, reset⟩ := fits fit
    refine ⟨t, launched, congrArg State.pc reset, fun k hk => ?_, zeros⟩
    rw [← List.getElem?_take_of_lt hk]
    exact placed k hk

end Sys2Proof
end
